-- ==== Sys2Proof/Word.lean ====
section
/-! DEFINITION. The byte, the only word of the CORE (10_state.md R10, R13, R18), and the names of its
eight registers (30_encoding.md R58). -/

namespace Sys2Proof

/-- Register contents, addresses, flags and memory cells are all one byte (10_state.md R10, R13, R14, R18). -/
abbrev Byte := BitVec 8

/-- The eight registers (10_state.md R10), named as the spec's assembler names them (30_encoding.md R58). -/
inductive Reg where
  | r0
  | r1
  | r2
  | r3
  | r4
  /-- R5 = IM, the interrupt mask (10_state.md R15). -/
  | r5
  /-- R6 = IS, the interrupt status (10_state.md R16). -/
  | r6
  /-- R7 = SP, the stack pointer (10_state.md R17). -/
  | r7
  deriving DecidableEq, Repr

/-- IM is the register-file cell 5 itself, not a copy (10_state.md R11). -/
abbrev Reg.im : Reg := .r5

/-- IS is the register-file cell 6 itself (10_state.md R11). -/
abbrev Reg.is : Reg := .r6

/-- SP is the register-file cell 7 itself (10_state.md R11). -/
abbrev Reg.sp : Reg := .r7

end Sys2Proof
end

