-- ==== Sys2Proof/Config.lean ====
section
/-! DEFINITION. What is fixed for one machine from outside: the free draws of the `tick` input. Every number of
the spec (opcode bytes, timer bit, vector base) stands beside the operation that uses it. -/

namespace Sys2Proof

/-- The `tick` input of 40_execution_loop.md R71 as a free draw in every cycle (93_implementation_defined.md U10):
the bit drawn at draw number `n`. No body: nothing can be proved about any value of it. Log 5. -/
opaque Config.tick : Nat → Bool

end Sys2Proof
end

