-- ==== Sys2Proof/Syntax.lean ====
section
/-! DEFINITION. The instructions: one constructor per row of spec/opcode_table.json (30_encoding.md R54). -/

namespace Sys2Proof

/-- The 14 instructions. A register operand is kept as its operand byte, whose value is the register's index
(30_encoding.md R51, R52); WellFormed says which bytes name a register. Operands stand in encoding order. -/
inductive Instr where
  /-- HLT (R75). -/
  | hlt
  /-- RET (R112). -/
  | ret
  /-- IRET (R142). -/
  | iret
  /-- PUSH r (R122). -/
  | push (r : Byte)
  /-- POP r (R123). -/
  | pop (r : Byte)
  /-- PRN r (R101). -/
  | prn (r : Byte)
  /-- PRA r (R102). -/
  | pra (r : Byte)
  /-- CALL r (R111). -/
  | call (r : Byte)
  /-- JMP r (R110). -/
  | jmp (r : Byte)
  /-- LDI r, imm (R100). -/
  | ldi (r imm : Byte)
  /-- STORE ra, rb: address register, value register (R103). -/
  | store (ra rb : Byte)
  /-- ADD ra, rb (R91). -/
  | add (ra rb : Byte)
  /-- MUL ra, rb (R92). -/
  | mul (ra rb : Byte)
  /-- CMP ra, rb (R93). -/
  | cmp (ra rb : Byte)
  deriving DecidableEq, Repr

end Sys2Proof
end

