-- ==== Sys2Proof/WellFormed.lean ====
section
/-! DEFINITION. Which instructions have an encoding: every register operand byte names a register
(30_encoding.md R52, R56). An immediate is never checked (R53). -/

namespace Sys2Proof

/-- A register operand byte names a register when its value is 0 to 7 (30_encoding.md R52). -/
def regByteOk (b : Byte) : Bool := decide (b.toNat ≤ 7)

/-- The check of every register operand byte of an instruction. -/
def Instr.wellFormed : Instr → Bool
  | .hlt => true
  | .ret => true
  | .iret => true
  | .push r => regByteOk r
  | .pop r => regByteOk r
  | .prn r => regByteOk r
  | .pra r => regByteOk r
  | .call r => regByteOk r
  | .jmp r => regByteOk r
  | .ldi r _ => regByteOk r
  | .store ra rb => regByteOk ra && regByteOk rb
  | .add ra rb => regByteOk ra && regByteOk rb
  | .mul ra rb => regByteOk ra && regByteOk rb
  | .cmp ra rb => regByteOk ra && regByteOk rb

/-- An instruction is well formed when each of its register operand bytes names a register. -/
abbrev Instr.WellFormed (i : Instr) : Prop := i.wellFormed = true

end Sys2Proof
end

