-- ==== Sys2Proof/Decode.lean ====
section
/-! DEFINITION. The decoder, total on any bytes and rejecting by name, and after it the encoder, both from the
formats of 30_encoding.md R51 and the ONE opcode table of R54. -/

namespace Sys2Proof

/-- The number a register's operand byte holds (30_encoding.md R51, R52). -/
def Reg.toByte : Reg → Byte
  | .r0 => 0
  | .r1 => 1
  | .r2 => 2
  | .r3 => 3
  | .r4 => 4
  | .r5 => 5
  | .r6 => 6
  | .r7 => 7

/-- The register an operand byte names: the whole byte is the index, and a byte of 8 or more names none
(30_encoding.md R52, R56). -/
def Reg.ofByte? (b : Byte) : Option Reg :=
  match b.toNat with
  | 0 => some .r0
  | 1 => some .r1
  | 2 => some .r2
  | 3 => some .r3
  | 4 => some .r4
  | 5 => some .r5
  | 6 => some .r6
  | 7 => some .r7
  | _ => none

/-- The 14 rows of the opcode map without their operands (30_encoding.md R54). -/
inductive Op where
  | hlt | ret | iret | push | pop | prn | pra | call | jmp | ldi | store | add | mul | cmp
  deriving DecidableEq, Repr

/-- The opcode bytes of 30_encoding.md R54, the only place they stand. PRESUMED: the spec takes every one of them
from general knowledge (92_eei_decisions.md D1). Log 1. -/
def Op.code : Op → Byte
  | .hlt => 0x01
  | .ret => 0x11
  | .iret => 0x13
  | .push => 0x45
  | .pop => 0x46
  | .prn => 0x47
  | .pra => 0x48
  | .call => 0x50
  | .jmp => 0x54
  | .ldi => 0x82
  | .store => 0x84
  | .add => 0xA0
  | .mul => 0xA2
  | .cmp => 0xA7

/-- The rows in the table's order. -/
def Op.all : List Op :=
  [.hlt, .ret, .iret, .push, .pop, .prn, .pra, .call, .jmp, .ldi, .store, .add, .mul, .cmp]

/-- All 8 bits of byte 0 are matched against the rows; no other property of the byte is used
(30_encoding.md R54, R57; 40_execution_loop.md R74). -/
def Op.ofByte? (b : Byte) : Option Op := Op.all.find? fun o => o.code == b

/-- Why bytes are no instruction. -/
inductive Reject where
  /-- Byte 0 is none of the 14 opcodes (30_encoding.md R55). -/
  | unknownOpcode (op : Byte)
  /-- Byte `k` of the instruction is not there (40_execution_loop.md R77); `k = 0` only when there is no byte at all. -/
  | missingByte (k : Nat)
  /-- A register operand byte of 8 or more (30_encoding.md R56). -/
  | badRegister (b : Byte)
  deriving DecidableEq, Repr

/-- What decoding answers: an instruction and the bytes after it, or a rejection by name. -/
inductive Decoded where
  | ok (i : Instr) (rest : List Byte)
  | reject (r : Reject)
  deriving DecidableEq, Repr

/-- Format R: one register byte (30_encoding.md R51). -/
def decodeR (mk : Byte → Instr) : List Byte → Decoded
  | [] => .reject (.missingByte 1)
  | r :: rest =>
    match Reg.ofByte? r with
    | none => .reject (.badRegister r)
    | some _ => .ok (mk r) rest

/-- Format RR: two register bytes, the first checked before the second is fetched (40_execution_loop.md R80 b, c). -/
def decodeRR (mk : Byte → Byte → Instr) : List Byte → Decoded
  | [] => .reject (.missingByte 1)
  | ra :: rest =>
    match Reg.ofByte? ra with
    | none => .reject (.badRegister ra)
    | some _ =>
      match rest with
      | [] => .reject (.missingByte 2)
      | rb :: rest' =>
        match Reg.ofByte? rb with
        | none => .reject (.badRegister rb)
        | some _ => .ok (mk ra rb) rest'

/-- Format RI: a register byte, then an immediate byte that is never checked (30_encoding.md R51, R53). -/
def decodeRI (mk : Byte → Byte → Instr) : List Byte → Decoded
  | [] => .reject (.missingByte 1)
  | r :: rest =>
    match Reg.ofByte? r with
    | none => .reject (.badRegister r)
    | some _ =>
      match rest with
      | [] => .reject (.missingByte 2)
      | imm :: rest' => .ok (mk r imm) rest'

/-- The operand bytes of a matched opcode, by its row's format (30_encoding.md R51, R54). -/
def decodeOperands (o : Op) (rest : List Byte) : Decoded :=
  match o with
  | .hlt => .ok .hlt rest
  | .ret => .ok .ret rest
  | .iret => .ok .iret rest
  | .push => decodeR .push rest
  | .pop => decodeR .pop rest
  | .prn => decodeR .prn rest
  | .pra => decodeR .pra rest
  | .call => decodeR .call rest
  | .jmp => decodeR .jmp rest
  | .ldi => decodeRI .ldi rest
  | .store => decodeRR .store rest
  | .add => decodeRR .add rest
  | .mul => decodeRR .mul rest
  | .cmp => decodeRR .cmp rest

/-- The instruction at the head of a list of bytes in ascending address order, with the bytes after it
(30_encoding.md R50, R51, R57). -/
def decode : List Byte → Decoded
  | [] => .reject (.missingByte 0)
  | b :: rest =>
    match Op.ofByte? b with
    | none => .reject (.unknownOpcode b)
    | some o => decodeOperands o rest

/-- The row of the opcode table an instruction belongs to. -/
def Instr.op : Instr → Op
  | .hlt => .hlt
  | .ret => .ret
  | .iret => .iret
  | .push _ => .push
  | .pop _ => .pop
  | .prn _ => .prn
  | .pra _ => .pra
  | .call _ => .call
  | .jmp _ => .jmp
  | .ldi _ _ => .ldi
  | .store _ _ => .store
  | .add _ _ => .add
  | .mul _ _ => .mul
  | .cmp _ _ => .cmp

/-- The operand bytes of an instruction, in encoding order (30_encoding.md R51). -/
def Instr.operandBytes : Instr → List Byte
  | .hlt => []
  | .ret => []
  | .iret => []
  | .push r => [r]
  | .pop r => [r]
  | .prn r => [r]
  | .pra r => [r]
  | .call r => [r]
  | .jmp r => [r]
  | .ldi r imm => [r, imm]
  | .store ra rb => [ra, rb]
  | .add ra rb => [ra, rb]
  | .mul ra rb => [ra, rb]
  | .cmp ra rb => [ra, rb]

/-- The bytes of an instruction in ascending address order: opcode, first operand, second operand
(20_memory.md R33; 30_encoding.md R51). -/
def encode (i : Instr) : List Byte := i.op.code :: i.operandBytes

/-- The length of an instruction in bytes, by its opcode's row (30_encoding.md R50, R54). -/
def Op.size : Op → Nat
  | .hlt => 1
  | .ret => 1
  | .iret => 1
  | .push => 2
  | .pop => 2
  | .prn => 2
  | .pra => 2
  | .call => 2
  | .jmp => 2
  | .ldi => 3
  | .store => 3
  | .add => 3
  | .mul => 3
  | .cmp => 3

/-- The three bytes of a table word in ascending address order: bits 7:0 are the first byte; every bit from
`nbits` up is 0. -/
def tableWordBytes (nbits w : Nat) : List Byte :=
  let v := w % 2 ^ nbits
  [BitVec.ofNat 8 v, BitVec.ofNat 8 (v / 256), BitVec.ofNat 8 (v / 65536)]

/-- The instruction the decoder reads from a word numbered as spec/opcode_table.json numbers its bits. -/
def decodeTableWord (nbits w : Nat) : Option Instr :=
  match decode (tableWordBytes nbits w) with
  | .ok i _ => some i
  | .reject _ => none

end Sys2Proof
end

