-- ==== Sys2Proof/Machine/State.lean ====
section
/-! DEFINITION. The state of the CORE (10_state.md R24), plain data, and its value after reset (R25 to R29). -/

namespace Sys2Proof.Machine

/-- The register file: eight one-byte cells (10_state.md R10). -/
structure Regs where
  r0 : Byte
  r1 : Byte
  r2 : Byte
  r3 : Byte
  r4 : Byte
  /-- IM (10_state.md R15). -/
  r5 : Byte
  /-- IS (10_state.md R16). -/
  r6 : Byte
  /-- SP (10_state.md R17). -/
  r7 : Byte
  deriving DecidableEq, Repr

/-- The 256 bytes of memory as (address, byte) pairs (10_state.md R18; 20_memory.md R30). An address that is not
listed reads as 0, the reset contents (R26). Canonical form: `Memory.wf` (Machine/Ops.lean). -/
abbrev Memory := List Host.Cell

/-- The two states of the interrupt controller (10_state.md R19; 60_exceptions.md R139). -/
inductive IrqState where
  | idle
  | servicing
  deriving DecidableEq, Repr

/-- `run_state` (10_state.md R20). HALTED and FAULTED are terminal. -/
inductive RunState where
  | running
  | halted
  | faulted
  deriving DecidableEq, Repr

/-- The three fatal faults (60_exceptions.md R131 to R133). Because R135 describes the whole state after one, the model takes
a fault as a NEXT state with `run_state` FAULTED and this value in the fault record; no step answers the outcome
`fault`. Safe: nothing is left out. Log 14. -/
inductive Fault where
  /-- Byte 0 at `pc` is none of the 14 opcodes; raised by the dispatch (60_exceptions.md R131). Safe: the spec's own fault. -/
  | unknownOpcode (pc op : Byte)
  /-- The instruction stream would be read at, or `pc` would become, `addr` of 256 or more; raised by an operand fetch,
  by a sequential advance and by CALL (60_exceptions.md R132). Safe: the spec's own fault. Log 3. -/
  | pcOutOfBounds (addr : Nat)
  /-- A register operand byte `b` above 7; raised by every instruction with a register operand (60_exceptions.md R133).
  Safe: the spec's own fault. Log 2. -/
  | badRegisterIndex (pc b : Byte)
  deriving DecidableEq, Repr

/-- Why an instruction is refused. No meaning refuses. -/
inductive Refusal where
  /-- The instruction has no meaning in the model yet; only an arm of `exec` answers it, and none does. Safe. -/
  | notModelled (mnemonic : String)
  deriving DecidableEq, Repr

/-- The fault record (10_state.md R23). -/
structure FaultRecord where
  /-- The fault's name, with the values the spec gives it. -/
  fault : Fault
  /-- The value of `pc` when the fault was raised. -/
  pc : Byte
  /-- `mem[pc]`. -/
  byte0 : Byte
  /-- `mem[pc+1]`; absent when `pc+1` is past 255. -/
  byte1 : Option Byte
  /-- `mem[pc+2]`; absent when `pc+2` is past 255. -/
  byte2 : Option Byte
  /-- `x[0]` to `x[7]`. -/
  regs : Regs
  deriving DecidableEq, Repr

/-- An event of the output trace (10_state.md R21). -/
inductive Event where
  /-- From PRN. -/
  | num (v : Byte)
  /-- From PRA. -/
  | chr (v : Byte)
  deriving DecidableEq, Repr

/-- The complete state of the CORE (10_state.md R24), and the two fields by which the model supplies the input `tick`. -/
structure State where
  /-- `x[0]` to `x[7]` (R10). -/
  regs : Regs
  /-- The program counter (R13). -/
  pc : Byte
  /-- The flags byte: bit 0 GT, bit 1 EQ, bit 2 LT (R14). -/
  fl : Byte
  /-- The memory (R18). -/
  mem : Memory
  /-- The interrupt controller's state (R19). -/
  irqState : IrqState
  /-- RUNNING, HALTED or FAULTED (R20). -/
  runState : RunState
  /-- The fault record, empty until a fault (R23). -/
  faultRecord : Option FaultRecord
  /-- The events emitted since reset, oldest first (R21). -/
  out : List Event
  /-- The model's own, not the spec's: the `tick` bits of the coming cycles, as far as they are given (00_scope.md
  R203 TICKS, R204). Log 5. -/
  tickInputs : List Bool
  /-- The model's own, not the spec's: how many `tick` bits were free draws so far, after `tickInputs` ran out. Log 5. -/
  tickDraws : Nat
  deriving DecidableEq, Repr

/-- The state after reset (10_state.md R25 to R29; 70_reset_and_hazards.md R160). The values of `pc`, `fl`, `irqState`,
`runState`, `faultRecord` and `out` are the spec's decision D10 (log 10). DESIGN CHOICE: no `tick` bit is given in
advance and no draw has been made (log 5). -/
def State.reset : State where
  regs := ⟨0, 0, 0, 0, 0, 0, 0, 244⟩
  pc := 0
  fl := 0
  mem := []
  irqState := .idle
  runState := .running
  faultRecord := none
  out := []
  tickInputs := []
  tickDraws := 0

end Sys2Proof.Machine
end

