-- ==== Sys2Proof/Machine/Ops.lean ====
section
/-! DEFINITION. The named operations over registers, memory, stack, program counter and output; raising a fault;
entering an interrupt and returning from one; the checks of cycle steps 1 and 2; the `tick` input. -/

namespace Sys2Proof.Machine

/-! ### Registers (10_state.md R10, R11): every register is an ordinary readable and writable cell. -/

def Regs.get (g : Regs) : Reg → Byte
  | .r0 => g.r0
  | .r1 => g.r1
  | .r2 => g.r2
  | .r3 => g.r3
  | .r4 => g.r4
  | .r5 => g.r5
  | .r6 => g.r6
  | .r7 => g.r7

def Regs.set (g : Regs) (r : Reg) (v : Byte) : Regs :=
  match r with
  | .r0 => { g with r0 := v }
  | .r1 => { g with r1 := v }
  | .r2 => { g with r2 := v }
  | .r3 => { g with r3 := v }
  | .r4 => { g with r4 := v }
  | .r5 => { g with r5 := v }
  | .r6 => { g with r6 := v }
  | .r7 => { g with r7 := v }

/-- `x[r]` (00_scope.md section 7). -/
def State.reg (s : State) (r : Reg) : Byte := s.regs.get r

/-- `x[r] <- v` (00_scope.md section 7). -/
def State.setReg (s : State) (r : Reg) (v : Byte) : State := { s with regs := s.regs.set r v }

/-! ### Memory (20_memory.md R30, R33, R35): one byte at an 8-bit address, no side effect, no protection. -/

/-- The canonical form: addresses strictly rising and below 256, no entry that holds what an unlisted address reads as. -/
def Memory.wf (m : Memory) : Bool :=
  m.all (fun c => decide (c.1 < 256) && (c.2 != 0)) && decide (m.Pairwise fun c d => c.1 < d.1)

/-- The byte a list of cells holds at a key; 0 where none is listed (10_state.md R26). -/
def Memory.lookup : Memory → Nat → Byte
  | [], _ => 0
  | (k, w) :: m, a => if k = a then w else Memory.lookup m a

/-- Put a cell in its place, replacing a cell of the same key. -/
def Memory.insert : Memory → Nat → Byte → Memory
  | [], a, v => [(a, v)]
  | (k, w) :: m, a, v =>
    if k < a then (k, w) :: Memory.insert m a v
    else if k = a then (a, v) :: m
    else (a, v) :: (k, w) :: m

/-- Remove the cell of a key. -/
def Memory.erase (m : Memory) (a : Nat) : Memory := m.filter fun c => c.1 != a

/-- `MemRead(a, 1)` (20_memory.md R35). -/
def Memory.read (m : Memory) (a : Byte) : Byte := Memory.lookup m a.toNat

/-- `MemWrite(a, 1, v)` (20_memory.md R35). Writing 0 removes the cell, so that equal memories are equal lists. -/
def Memory.write (m : Memory) (a v : Byte) : Memory :=
  if v = 0 then Memory.erase m a.toNat else Memory.insert m a.toNat v

/-- `MemRead(a, 1)` on the CORE's memory. -/
def State.readMem (s : State) (a : Byte) : Byte := Memory.read s.mem a

/-- `MemWrite(a, 1, v)` on the CORE's memory. -/
def State.writeMem (s : State) (a v : Byte) : State := { s with mem := Memory.write s.mem a v }

/-! ### Faults (60_exceptions.md R131 to R135) -/

/-- The byte at `pc + k` when that address is at most 255 (10_state.md R23; 40_execution_loop.md R77): an exact
sum, never wrapped to address 0. -/
def State.byteAt? (s : State) (k : Nat) : Option Byte :=
  if s.pc.toNat + k ≤ 255 then some (s.readMem (BitVec.ofNat 8 (s.pc.toNat + k))) else none

/-- The record of a fault raised now (10_state.md R23): its three bytes start at `pc` (92_eei_decisions.md D25, log 23). -/
def faultRecordOf (f : Fault) (s : State) : FaultRecord where
  fault := f
  pc := s.pc
  byte0 := s.readMem s.pc
  byte1 := s.byteAt? 1
  byte2 := s.byteAt? 2
  regs := s.regs

/-- `raise F(info)` (60_exceptions.md R135): FAULTED, the record written, nothing else changed and nothing undone. -/
def raise (f : Fault) (s : State) : State :=
  { s with runState := .faulted, faultRecord := some (faultRecordOf f s) }

/-! ### Program counter and output -/

/-- `Advance(L)` (40_execution_loop.md R79): an exact sum; past 255 it raises PcOutOfBounds and `pc` stays. -/
def advance (len : Nat) (s : State) : State :=
  if s.pc.toNat + len ≤ 255 then { s with pc := BitVec.ofNat 8 (s.pc.toNat + len) }
  else raise (.pcOutOfBounds (s.pc.toNat + len)) s

/-- `pc <- target`: a target is a byte, so it is always in range (10_state.md R13; 43_control_flow.md R110). -/
def jumpTo (target : Byte) (s : State) : State := { s with pc := target }

/-- `Emit(e)` (10_state.md R21): append to the trace. -/
def emit (e : Event) (s : State) : State := { s with out := s.out ++ [e] }

/-! ### The stack (44_stack.md R120, R121, R124): addresses wrap modulo 256, nothing is checked, `pc` is not touched. -/

/-- The address the next push writes: `(SP - 1) mod 256` (44_stack.md R120). -/
def pushAddr (s : State) : Byte := s.reg .sp - 1

/-- `StackPush(v)` (44_stack.md R120). -/
def stackPush (v : Byte) (s : State) : State :=
  (s.writeMem (pushAddr s) v).setReg .sp (pushAddr s)

/-- The byte `StackPop()` returns (44_stack.md R121). -/
def stackTop (s : State) : Byte := s.readMem (s.reg .sp)

/-- What `StackPop()` leaves: SP one higher, modulo 256; memory as it was (44_stack.md R121). -/
def stackDrop (s : State) : State := s.setReg .sp (s.reg .sp + 1)

/-- `x[r] <- StackPop()`: the register is written after SP moves (44_stack.md R123; 92_eei_decisions.md D16, log 16). -/
def popInto (r : Reg) (s : State) : State := (stackDrop s).setReg r (stackTop s)

/-! ### Interrupt entry and return (60_exceptions.md R140 to R142) -/

/-- The vector table's entry for interrupt `i` is at `0xF8 + i` (60_exceptions.md R141). -/
def vectorAddr (i : Fin 8) : Byte := BitVec.ofNat 8 (0xF8 + i.val)

/-- Bit `i` alone: `1 << i` (92_eei_decisions.md D23). -/
def bitMask (i : Fin 8) : Byte := BitVec.ofNat 8 (2 ^ i.val)

/-- The registers entry saves, in the order it pushes them (60_exceptions.md R140 step 3). -/
def savedRegs : List Reg := [.r0, .r1, .r2, .r3, .r4, .r5, .r6]

/-- Push one register's value. -/
def pushReg (s : State) (r : Reg) : State := stackPush (s.reg r) s

/-- Entry steps 1 to 3: clear the serviced bit of IS, push `pc`, push `x[0]` to `x[6]` (60_exceptions.md R140). -/
def saveContext (i : Fin 8) (s : State) : State :=
  let cleared := s.setReg .is (s.reg .is &&& ~~~ bitMask i)
  savedRegs.foldl pushReg (stackPush cleared.pc cleared)

/-- `InterruptEntry(i)` (60_exceptions.md R140): the vector is read after the eight pushes. -/
def interruptEntry (i : Fin 8) (s : State) : State :=
  let saved := saveContext i s
  { saved with pc := saved.readMem (vectorAddr i), irqState := .servicing }

/-- The registers IRET restores, in the order it pops them (60_exceptions.md R142). -/
def restoredRegs : List Reg := [.r6, .r5, .r4, .r3, .r2, .r1, .r0]

/-- The interrupt return (60_exceptions.md R142): pop `x[6]` down to `x[0]`, pop `pc`, controller IDLE. It checks
nothing, IDLE or not (R146). -/
def interruptReturn (s : State) : State :=
  let restored := restoredRegs.foldl (fun t r => popInto r t) s
  { stackDrop restored with pc := stackTop restored, irqState := .idle }

/-! ### Cycle steps 1 and 2 (40_execution_loop.md R71, R72) -/

/-- The IS bit the timer sets, TIMER_BIT (40_execution_loop.md R71). PRESUMED: 0 (92_eei_decisions.md D6). Log 6. -/
def timerBit : Fin 8 := 0

/-- Step 1, timer check (40_execution_loop.md R71): on a tick the timer's bit is ORed into IS; nothing else changes. -/
def timerCheck (tick : Bool) (s : State) : State :=
  s.setReg .is (if tick then s.reg .is ||| bitMask timerBit else s.reg .is)

/-- Interrupt `i` is enabled while bit `i` of IM is 1 (60_exceptions.md R137). -/
def enabled (s : State) (i : Fin 8) : Bool := (s.reg .im).getLsbD i.val

/-- Interrupt `i` is pending while bit `i` of IS is 1 (60_exceptions.md R137). -/
def pending (s : State) (i : Fin 8) : Bool := (s.reg .is).getLsbD i.val

/-- The interrupt indices in the order the arbiter scans them. PRESUMED: ascending (92_eei_decisions.md D8). Log 8. -/
def scanOrder : List (Fin 8) := [0, 1, 2, 3, 4, 5, 6, 7]

/-- The first index of the scan whose bit is set in both IM and IS: `lowest_set(x[5] & x[6])` (60_exceptions.md R138). -/
def arbiter (s : State) : Option (Fin 8) := scanOrder.find? fun i => enabled s i && pending s i

/-- Step 2, interrupt check (40_execution_loop.md R72; 60_exceptions.md R138, R139): only while the controller is IDLE, at
most one entry. -/
def interruptCheck (s : State) : State :=
  match s.irqState with
  | .servicing => s
  | .idle =>
    match arbiter s with
    | none => s
    | some i => interruptEntry i s

/-! ### Step 3, the fetch (40_execution_loop.md R73, R77) -/

/-- The bytes of memory an instruction at `pc` can take: the opcode byte and the one or two after it, as far as they lie
below 256. Reading has no side effect (20_memory.md R35), so a byte read here and not needed cannot be seen (log 18). -/
def fetchWindow (s : State) : List Byte :=
  s.readMem s.pc :: ((s.byteAt? 1).toList ++ (s.byteAt? 2).toList)

/-- The fault of bytes that are no instruction (40_execution_loop.md R76, R77, R78). -/
def faultOfReject (r : Reject) (s : State) : Fault :=
  match r with
  | .unknownOpcode op => .unknownOpcode s.pc op
  | .missingByte k => .pcOutOfBounds (s.pc.toNat + k)
  | .badRegister b => .badRegisterIndex s.pc b

/-! ### The input `tick` (00_scope.md R204; 93_implementation_defined.md U10). Log 5. -/

/-- The `tick` bit of the coming cycle: the next given one, or else a free draw. -/
def tickInput (s : State) : Bool :=
  match s.tickInputs with
  | b :: _ => b
  | [] => Config.tick s.tickDraws

/-- Sampling `tick` uses it up; in a terminal state no `tick` is sampled (10_state.md R20). -/
def sampleTick (s : State) : State :=
  match s.runState with
  | .running =>
    match s.tickInputs with
    | _ :: bs => { s with tickInputs := bs }
    | [] => { s with tickDraws := s.tickDraws + 1 }
  | .halted => s
  | .faulted => s

end Sys2Proof.Machine
end

