-- ==== Sys2Proof/Machine/Flags.lean ====
section
/-! DEFINITION. The flags byte FL (10_state.md R14) and the flags comparator (41_alu.md R93). CMP is its only writer. -/

namespace Sys2Proof.Machine

/-- GT is bit 0 of FL (10_state.md R14). -/
def flagGT : Byte := 0x01

/-- EQ is bit 1 of FL (10_state.md R14). -/
def flagEQ : Byte := 0x02

/-- LT is bit 2 of FL (10_state.md R14). -/
def flagLT : Byte := 0x04

/-- The one bit a comparison of `a` with `b` sets: the unsigned order (41_alu.md R93; 92_eei_decisions.md D15, log 15). -/
def compareFlag (a b : Byte) : Byte :=
  if b.toNat < a.toNat then flagGT else if a = b then flagEQ else flagLT

/-- `FL <- FL | bit`: a comparison ORs its bit in and clears none (41_alu.md R93, R94). -/
def accumulateFlag (bit : Byte) (s : State) : State := { s with fl := s.fl ||| bit }

end Sys2Proof.Machine
end

