-- ==== Sys2Proof/Machine/Operands.lean ====
section
/-! DEFINITION. The operand forms: the range check of `Operand(k)` (40_execution_loop.md R77) and the register check of
`Reg(b)` (R78), in the order of R80. An instruction's operand byte is part of the instruction; what is done here is
what fetching and checking it can raise, before the instruction has any effect. -/

namespace Sys2Proof.Machine

/-- `Operand(k)`: past address 255 it raises PcOutOfBounds, else the instruction goes on (40_execution_loop.md R77). -/
def operandFetch (k : Nat) (s : State) (go : State) : State :=
  if s.pc.toNat + k ≤ 255 then go else raise (.pcOutOfBounds (s.pc.toNat + k)) s

/-- `Reg(b)`: a byte above 7 raises BadRegisterIndex, else the instruction goes on with the register
(40_execution_loop.md R78). -/
def regCheck (b : Byte) (s : State) (go : Reg → State) : State :=
  match Reg.ofByte? b with
  | none => raise (.badRegisterIndex s.pc b) s
  | some r => go r

/-- `Reg(Operand(k))`: a register operand, byte `k` of the instruction, with value `b`. -/
def regOperand (k : Nat) (b : Byte) (s : State) (go : Reg → State) : State :=
  operandFetch k s (regCheck b s go)

/-- Format R: the one register operand (30_encoding.md R51). -/
def formatR (r : Byte) (s : State) (go : Reg → State) : State := regOperand 1 r s go

/-- Format RR: two register operands, left to right (30_encoding.md R51; 40_execution_loop.md R80). -/
def formatRR (ra rb : Byte) (s : State) (go : Reg → Reg → State) : State :=
  regOperand 1 ra s fun a => regOperand 2 rb s fun b => go a b

/-- Format RI: a register operand, then the immediate, which has no check of its own (30_encoding.md R51, R53). -/
def formatRI (r : Byte) (s : State) (go : Reg → State) : State :=
  regOperand 1 r s fun d => operandFetch 2 s (go d)

end Sys2Proof.Machine
end

