-- ==== Sys2Proof/Machine/Alu.lean ====
section
/-! DEFINITION. ADD, MUL and CMP (41_alu.md). -/

namespace Sys2Proof.Machine

/-- `(a + b) mod 256`; the carry is discarded (41_alu.md R91, R96). -/
def aluAdd (a b : Byte) : Byte := BitVec.ofNat 8 (a.toNat + b.toNat)

/-- `(a * b) mod 256`; the high half of the product is discarded (41_alu.md R92, R96). -/
def aluMul (a b : Byte) : Byte := BitVec.ofNat 8 (a.toNat * b.toNat)

/-- ADD ra, rb (41_alu.md R91). -/
def execAdd (ra rb : Byte) (s : State) : Host.Outcome State Fault Refusal :=
  .next (formatRR ra rb s fun a b => advance 3 (s.setReg a (aluAdd (s.reg a) (s.reg b))))

/-- MUL ra, rb (41_alu.md R92). -/
def execMul (ra rb : Byte) (s : State) : Host.Outcome State Fault Refusal :=
  .next (formatRR ra rb s fun a b => advance 3 (s.setReg a (aluMul (s.reg a) (s.reg b))))

/-- CMP ra, rb (41_alu.md R93): no register is written. -/
def execCmp (ra rb : Byte) (s : State) : Host.Outcome State Fault Refusal :=
  .next (formatRR ra rb s fun a b => advance 3 (accumulateFlag (compareFlag (s.reg a) (s.reg b)) s))

end Sys2Proof.Machine
end

