-- ==== Sys2Proof/Machine/Control.lean ====
section
/-! DEFINITION. JMP, CALL and RET (43_control_flow.md). -/

namespace Sys2Proof.Machine

/-- JMP r (43_control_flow.md R110): no advance, no flag read. -/
def execJmp (r : Byte) (s : State) : Host.Outcome State Fault Refusal :=
  .next (formatR r s fun d => jumpTo (s.reg d) s)

/-- The effect of CALL once its operand is checked (43_control_flow.md R111): the return address is range-checked before the
push, and the target register is read after it (92_eei_decisions.md D16, log 16). -/
def callThrough (d : Reg) (s : State) : State :=
  if s.pc.toNat + 2 ≤ 255 then
    let pushed := stackPush (BitVec.ofNat 8 (s.pc.toNat + 2)) s
    jumpTo (pushed.reg d) pushed
  else raise (.pcOutOfBounds (s.pc.toNat + 2)) s

/-- CALL r (43_control_flow.md R111). -/
def execCall (r : Byte) (s : State) : Host.Outcome State Fault Refusal :=
  .next (formatR r s fun d => callThrough d s)

/-- RET (43_control_flow.md R112): the popped byte is the next fetch address; no increment. -/
def execRet (s : State) : Host.Outcome State Fault Refusal :=
  .next (jumpTo (stackTop s) (stackDrop s))

end Sys2Proof.Machine
end

