-- ==== Sys2Proof/Machine/Data.lean ====
section
/-! DEFINITION. LDI, PRN, PRA and STORE (42_data_movement_output.md), and the text rendering of the trace (R104). -/

namespace Sys2Proof.Machine

/-- LDI r, imm (42_data_movement_output.md R100). -/
def execLdi (r imm : Byte) (s : State) : Host.Outcome State Fault Refusal :=
  .next (formatRI r s fun d => advance 3 (s.setReg d imm))

/-- PRN r (42_data_movement_output.md R101): the event is appended before the advance. -/
def execPrn (r : Byte) (s : State) : Host.Outcome State Fault Refusal :=
  .next (formatR r s fun d => advance 2 (emit (.num (s.reg d)) s))

/-- PRA r (42_data_movement_output.md R102). -/
def execPra (r : Byte) (s : State) : Host.Outcome State Fault Refusal :=
  .next (formatR r s fun d => advance 2 (emit (.chr (s.reg d)) s))

/-- STORE ra, rb (42_data_movement_output.md R103): register indirect, no offset; the write is made before the advance. -/
def execStore (ra rb : Byte) (s : State) : Host.Outcome State Fault Refusal :=
  .next (formatRR ra rb s fun a b => advance 3 (s.writeMem (s.reg a) (s.reg b)))

/-- One item of rendered text (42_data_movement_output.md R104): a character by its code point, or the end of a line,
whose byte is outside the CORE (92_eei_decisions.md D11, log 11). -/
inductive TextItem where
  | codePoint (n : Nat)
  | lineEnd
  deriving DecidableEq, Repr

/-- The decimal digits of a number below 1000, most significant first, no leading zeros, 0 as one digit. -/
def decimalDigits (n : Nat) : List Nat :=
  if n < 10 then [n]
  else if n < 100 then [n / 10, n % 10]
  else [n / 100, n / 10 % 10, n % 10]

/-- The text of one event (42_data_movement_output.md R104): a number in decimal digits and one line end; a character alone.
A digit `d` is the character with code point `48 + d`. -/
def renderEvent : Event → List TextItem
  | .num v => (decimalDigits v.toNat).map (fun d => .codePoint (48 + d)) ++ [.lineEnd]
  | .chr v => [.codePoint v.toNat]

/-- The text of a trace (42_data_movement_output.md R104). -/
def renderTrace (es : List Event) : List TextItem := es.flatMap renderEvent

end Sys2Proof.Machine
end

