-- ==== Sys2Proof/Machine/Stack.lean ====
section
/-! DEFINITION. PUSH and POP (44_stack.md). -/

namespace Sys2Proof.Machine

/-- PUSH r (44_stack.md R122): the value is read before SP moves. -/
def execPush (r : Byte) (s : State) : Host.Outcome State Fault Refusal :=
  .next (formatR r s fun d => advance 2 (pushReg s d))

/-- POP r (44_stack.md R123): the register is written after SP moves. -/
def execPop (r : Byte) (s : State) : Host.Outcome State Fault Refusal :=
  .next (formatR r s fun d => advance 2 (popInto d s))

end Sys2Proof.Machine
end

