-- ==== Sys2Proof/Machine/System.lean ====
section
/-! DEFINITION. HLT (40_execution_loop.md R75) and IRET (60_exceptions.md R142). -/

namespace Sys2Proof.Machine

/-- HLT (40_execution_loop.md R75): `pc` stays at the HLT byte (92_eei_decisions.md D13, log 13). -/
def execHlt (s : State) : Host.Outcome State Fault Refusal := .next { s with runState := .halted }

/-- IRET (60_exceptions.md R142, R146). -/
def execIret (s : State) : Host.Outcome State Fault Refusal := .next (interruptReturn s)

end Sys2Proof.Machine
end

