-- ==== Sys2Proof/Machine/Cycle.lean ====
section
/-! DEFINITION. One cycle for a given `tick` bit (40_execution_loop.md R70), and what crosses the CORE's boundary outside
a cycle (00_scope.md R204): reset, the loader's write, what the host reads back. -/

namespace Sys2Proof.Machine

/-- Steps 3 to 6 (40_execution_loop.md R73, R74, R76): fetch at `pc`, decode, execute or raise. -/
def fetchExecute (s : State) : Host.Outcome State Fault Refusal :=
  match decode (fetchWindow s) with
  | .ok i _ => exec i s
  | .reject r => .next (raise (faultOfReject r s) s)

/-- What the fetch of a cycle sees: the state after the timer check and the interrupt check (40_execution_loop.md R70). -/
def beforeFetch (tick : Bool) (s : State) : State := interruptCheck (timerCheck tick s)

/-- `Cycle(tick)` (40_execution_loop.md R70); in a terminal state it changes nothing (R81). -/
def cycle (tick : Bool) (s : State) : Host.Outcome State Fault Refusal :=
  match s.runState with
  | .running => fetchExecute (beforeFetch tick s)
  | .halted => .next s
  | .faulted => .next s

/-- The input `reset` (00_scope.md R204; 70_reset_and_hazards.md R160): every piece of the CORE's state at its reset value. The
`tick` inputs belong to the world outside and go on (log 29). -/
def applyReset (s : State) : State :=
  { State.reset with tickInputs := s.tickInputs, tickDraws := s.tickDraws }

/-- Write bytes at rising addresses from a key on. -/
def writeImage : List Byte → Nat → Memory → Memory
  | [], _, m => m
  | b :: bs, a, m => writeImage bs (a + 1) (Memory.write m (BitVec.ofNat 8 a) b)

/-- The loader's access (20_memory.md R43; 10_state.md R26): the image's bytes from address 0 upward. An image of more than
256 bytes has no launch (93_implementation_defined.md U21). Log 24. -/
def loadImage (image : List Byte) (s : State) : Option State :=
  if image.length ≤ 256 then some { s with mem := writeImage image 0 s.mem } else none

/-- What the host may read at the end of a run (70_reset_and_hazards.md R163): `run_state`, the trace and, if FAULTED,
the fault record. -/
def hostView (s : State) : RunState × List Event × Option FaultRecord :=
  (s.runState, s.out, match s.runState with | .faulted => s.faultRecord | .running => none | .halted => none)

/-- Lay bytes out in memory from `pc` on, as far as the addresses lie below 256. -/
def placeAtPc : List Byte → Nat → State → State
  | [], _, s => s
  | b :: bs, k, s =>
    placeAtPc bs (k + 1)
      (if s.pc.toNat + k ≤ 255 then s.writeMem (BitVec.ofNat 8 (s.pc.toNat + k)) b else s)

end Sys2Proof.Machine
end

