-- ==== Sys2Proof/Machine/Step.lean ====
section
/-! DEFINITION. The step of the machine: one cycle with the `tick` bit the input gives it (40_execution_loop.md R70, R83). -/

namespace Sys2Proof.Machine

/-- One step: sample `tick` (log 5), then one cycle. -/
def step (s : State) : Host.Outcome State Fault Refusal := cycle (tickInput s) (sampleTick s)

/-- `s` with a table word's bytes stored where the next fetch finds them: at `pc` on. Log 24. -/
def State.withFetchWord (s : State) (nbits w : Nat) : State := placeAtPc (tableWordBytes nbits w) 0 s

end Sys2Proof.Machine
end

