-- ==== Sys2Proof/Safety.lean ====
section
/-! DEFINITION. The terms claims are stated in: how a run ends (40_execution_loop.md R83), the invariants of the machine's states,
which registers an instruction reads and writes (10_state.md R12), what the operand checks raise (40_execution_loop.md R80), and
sequences of pushes and pops (44_stack.md R125). -/

namespace Sys2Proof.Machine

/-! ### Runs -/

/-- One cycle for each of the given `tick` bits (40_execution_loop.md R83, R84). -/
def runCycles : List Bool → State → Host.Outcome State Fault Refusal
  | [], s => .next s
  | t :: ts, s =>
    match cycle t s with
    | .next s' => runCycles ts s'
    | .fault f => .fault f
    | .refused r => .refused r

/-- The run from `s` with the ticks `ts` ends well (40_execution_loop.md R83). -/
def EndsWell (ts : List Bool) (s : State) : Prop := ∃ t, runCycles ts s = .next t ∧ t.runState = .halted

/-- The run from `s` with the ticks `ts` ends badly (40_execution_loop.md R83). -/
def EndsBadly (ts : List Bool) (s : State) : Prop := ∃ t, runCycles ts s = .next t ∧ t.runState = .faulted

/-! ### Invariants -/

/-- The memory is in its canonical form. -/
def MemoryCanonical (s : State) : Prop := Memory.wf s.mem = true

/-- Bits 3 to 7 of FL are 0 (10_state.md R14). -/
def FlagsReservedClear (s : State) : Prop := s.fl &&& 0xF8 = 0

/-- There is a fault record exactly in a FAULTED state (10_state.md R23, R29). -/
def RecordMatchesRunState (s : State) : Prop := s.faultRecord.isSome = true ↔ s.runState = .faulted

/-! ### Registers read and written (10_state.md R12) -/

/-- The register an operand byte names, as a list of at most one. -/
def operandRegs (b : Byte) : List Reg := (Reg.ofByte? b).toList

/-- The registers an instruction reads (10_state.md R12, column "reads"). -/
def readRegs : Instr → List Reg
  | .hlt => []
  | .ret => [.sp]
  | .iret => [.sp]
  | .push r => operandRegs r ++ [.sp]
  | .pop _ => [.sp]
  | .prn r => operandRegs r
  | .pra r => operandRegs r
  | .call r => operandRegs r ++ [.sp]
  | .jmp r => operandRegs r
  | .ldi _ _ => []
  | .store ra rb => operandRegs ra ++ operandRegs rb
  | .add ra rb => operandRegs ra ++ operandRegs rb
  | .mul ra rb => operandRegs ra ++ operandRegs rb
  | .cmp ra rb => operandRegs ra ++ operandRegs rb

/-- The registers an instruction writes (10_state.md R12, column "writes"). -/
def writtenRegs : Instr → List Reg
  | .hlt => []
  | .ret => [.sp]
  | .iret => [.r6, .r5, .r4, .r3, .r2, .r1, .r0, .sp]
  | .push _ => [.sp]
  | .pop r => .sp :: operandRegs r
  | .prn _ => []
  | .pra _ => []
  | .call _ => [.sp]
  | .jmp _ => []
  | .ldi r _ => operandRegs r
  | .store _ _ => []
  | .add ra _ => operandRegs ra
  | .mul ra _ => operandRegs ra
  | .cmp _ _ => []

/-! ### What the operand checks raise, before any effect (40_execution_loop.md R77, R78, R80) -/

/-- Format R: at address 255 the operand byte is past the end; else a byte of 8 or more names no register. -/
def OperandFaultsR (i : Byte → Instr) : Prop :=
  ∀ (r : Byte) (s : State),
    (s.pc.toNat = 255 → exec (i r) s = .next (raise (.pcOutOfBounds 256) s)) ∧
    (s.pc.toNat ≤ 254 → 8 ≤ r.toNat → exec (i r) s = .next (raise (.badRegisterIndex s.pc r) s))

/-- Format RR: the first operand is fetched and checked, then the second. -/
def OperandFaultsRR (i : Byte → Byte → Instr) : Prop :=
  ∀ (ra rb : Byte) (s : State),
    (s.pc.toNat = 255 → exec (i ra rb) s = .next (raise (.pcOutOfBounds 256) s)) ∧
    (s.pc.toNat ≤ 254 → 8 ≤ ra.toNat → exec (i ra rb) s = .next (raise (.badRegisterIndex s.pc ra) s)) ∧
    (s.pc.toNat = 254 → ra.toNat ≤ 7 → exec (i ra rb) s = .next (raise (.pcOutOfBounds 256) s)) ∧
    (s.pc.toNat ≤ 253 → ra.toNat ≤ 7 → 8 ≤ rb.toNat →
      exec (i ra rb) s = .next (raise (.badRegisterIndex s.pc rb) s))

/-- Format RI: as RR, but the second byte is an immediate and has no check of its own. -/
def OperandFaultsRI (i : Byte → Byte → Instr) : Prop :=
  ∀ (r imm : Byte) (s : State),
    (s.pc.toNat = 255 → exec (i r imm) s = .next (raise (.pcOutOfBounds 256) s)) ∧
    (s.pc.toNat ≤ 254 → 8 ≤ r.toNat → exec (i r imm) s = .next (raise (.badRegisterIndex s.pc r) s)) ∧
    (s.pc.toNat = 254 → r.toNat ≤ 7 → exec (i r imm) s = .next (raise (.pcOutOfBounds 256) s))

/-! ### Sequences of pushes and pops (44_stack.md R125) -/

/-- Push the values in order, the first one first. -/
def pushMany (vs : List Byte) (s : State) : State := vs.foldl (fun t v => stackPush v t) s

/-- Pop `n` bytes: the bytes in the order they come off, and the state left. -/
def popMany : Nat → State → List Byte × State
  | 0, s => ([], s)
  | n + 1, s =>
    let (vs, t) := popMany n (stackDrop s)
    (stackTop s :: vs, t)

/-! ### Two runs that differ only in their ticks (40_execution_loop.md R84) -/

/-- A register file with the timer's bit of IS blotted out. -/
def Regs.blotTimerBit (g : Regs) : Regs := g.set .is (g.get .is ||| 0x01)

/-- Two states that agree in everything but bit 0 of `x[6]` (in the register file and in the copy a fault record holds) and the
`tick` inputs still to come. -/
def AgreeUpToTimerBit (s t : State) : Prop :=
  s.regs.blotTimerBit = t.regs.blotTimerBit ∧ s.pc = t.pc ∧ s.fl = t.fl ∧ s.mem = t.mem ∧ s.irqState = t.irqState ∧
    s.runState = t.runState ∧ s.out = t.out ∧
    s.faultRecord.map (fun f => { f with regs := f.regs.blotTimerBit }) =
      t.faultRecord.map (fun f => { f with regs := f.regs.blotTimerBit })

end Sys2Proof.Machine
end

