-- ==== Sys2Proof/Certificates/Slice0/Obligations.lean ====
section
/-! DEFINITION. The statements for the provers, each from the numbered rules of spec/ named in its docstring. -/

open Sys2Proof Sys2Proof.Machine

/-! ### Encoding -/

/-- R54, R51: one word of every row, written out byte by byte from the spec's table, decodes to its instruction. The
opcode bytes are the spec's decision D1 (log 1). -/
def Obligations.TableWordsDecodeToTheirInstructions : Prop :=
  decode [0b00000001] = .ok .hlt [] ∧
  decode [0b00010001] = .ok .ret [] ∧
  decode [0b00010011] = .ok .iret [] ∧
  decode [0b01000101, 0b00000011] = .ok (.push 3) [] ∧
  decode [0b01000110, 0b00000111] = .ok (.pop 7) [] ∧
  decode [0b01000111, 0b00000001] = .ok (.prn 1) [] ∧
  decode [0b01001000, 0b00000000] = .ok (.pra 0) [] ∧
  decode [0b01010000, 0b00000010] = .ok (.call 2) [] ∧
  decode [0b01010100, 0b00000110] = .ok (.jmp 6) [] ∧
  decode [0b10000010, 0b00000101, 0b11111111] = .ok (.ldi 5 255) [] ∧
  decode [0b10000100, 0b00000001, 0b00000010] = .ok (.store 1 2) [] ∧
  decode [0b10100000, 0b00000011, 0b00000100] = .ok (.add 3 4) [] ∧
  decode [0b10100010, 0b00000100, 0b00000011] = .ok (.mul 4 3) [] ∧
  decode [0b10100111, 0b00000000, 0b00000111] = .ok (.cmp 0 7) []

/-- R51, R54, R57: decoding the bytes of a well-formed instruction, whatever follows them, gives the instruction back and leaves
what follows. -/
def Obligations.DecodeOfEncodeIsTheInstruction : Prop :=
  ∀ (i : Instr) (rest : List Byte), i.WellFormed → decode (encode i ++ rest) = .ok i rest

/-- R51, R54, R56: bytes that decode are the encoding of the well-formed instruction they decode to, so each word has one meaning
and no bit of it is dropped. -/
def Obligations.DecodedBytesAreTheEncoding : Prop :=
  ∀ (bs rest : List Byte) (i : Instr), decode bs = .ok i rest → i.WellFormed ∧ bs = encode i ++ rest

/-- R55: a byte 0 that is none of the 14 opcodes is unknown whatever follows it, and there are exactly 242 of them, 0x00 among
them. The 14 bytes are the spec's decision D1 (log 1). -/
def Obligations.OtherOpcodeBytesAreUnknown : Prop :=
  (∀ (op : Byte) (rest : List Byte),
    op ∉ ([0x01, 0x11, 0x13, 0x45, 0x46, 0x47, 0x48, 0x50, 0x54, 0x82, 0x84, 0xA0, 0xA2, 0xA7] : List Byte) →
      decode (op :: rest) = .reject (.unknownOpcode op)) ∧
  ((List.range 256).filter fun n => (Op.ofByte? (BitVec.ofNat 8 n)).isNone).length = 242 ∧
  decode [0x00] = .reject (.unknownOpcode 0x00)

/-- R50: when bytes decode, the opcode byte alone has set how many of them the instruction takes: one opcode byte and 0, 1 or 2 operand
bytes. -/
def Obligations.LengthIsFixedByTheOpcode : Prop :=
  ∀ (b : Byte) (bs rest : List Byte) (i : Instr), decode (b :: bs) = .ok i rest →
    ∃ o : Op, Op.ofByte? b = some o ∧ (b :: bs).length = o.size + rest.length ∧ 1 ≤ o.size ∧ o.size ≤ 3

/-- R52, R56, R80: a register byte of 8 or more is rejected by name, left to right, whatever the bytes after it. The rejection is the
spec's decision D2 (log 2), the opcode bytes D1 (log 1), the order D28 (log 25). -/
def Obligations.RegisterBytesAboveSevenAreRejected : Prop :=
  (∀ op ∈ ([0x45, 0x46, 0x47, 0x48, 0x50, 0x54, 0x82, 0x84, 0xA0, 0xA2, 0xA7] : List Byte),
    ∀ (b : Byte) (rest : List Byte), 8 ≤ b.toNat → decode (op :: b :: rest) = .reject (.badRegister b)) ∧
  (∀ op ∈ ([0x84, 0xA0, 0xA2, 0xA7] : List Byte),
    ∀ (a : Reg) (b : Byte) (rest : List Byte), 8 ≤ b.toNat →
      decode (op :: a.toByte :: b :: rest) = .reject (.badRegister b))

/-! ### The results of the instructions. Each holds for every operand byte and every address of the opcode.

Three clauses of each rest on decisions of the spec, not on the source: the opcode byte on D1 (log 1), BadRegisterIndex on D2 (log 2),
PcOutOfBounds and where it is raised on D3 (log 3). The wrap of SP rests on D4 (log 4). -/

/-- R75: HLT sets HALTED and leaves everything else, `pc` too, at every address; after it no cycle changes anything.
That `pc` stays is the spec's decision D13 (log 13). -/
def Obligations.HltHaltsInPlace : Prop :=
  encode .hlt = [0x01] ∧
  ∀ s : State, exec .hlt s = .next { s with runState := .halted } ∧
    ∀ tick, cycle tick { s with runState := .halted } = .next { s with runState := .halted }

/-- R112: RET takes `pc` from the byte at SP and adds one to SP modulo 256; nothing else changes. -/
def Obligations.RetPopsIntoPc : Prop :=
  encode .ret = [0x11] ∧
  ∀ s : State, exec .ret s =
    .next { s with pc := s.readMem (s.reg .r7), regs := s.regs.set .r7 (s.reg .r7 + 1) }

/-- R142, R146 (decision D17, log 17): IRET pops `x[6]` down to `x[0]`, then `pc`, adds 8 to SP modulo 256 and leaves the controller IDLE, whatever the
controller's state was; nothing else changes. -/
def Obligations.IretRestoresTheFrame : Prop :=
  encode .iret = [0x13] ∧
  ∀ s : State, exec .iret s =
    .next { s with
      regs := ⟨s.readMem (s.reg .r7 + 6), s.readMem (s.reg .r7 + 5), s.readMem (s.reg .r7 + 4),
        s.readMem (s.reg .r7 + 3), s.readMem (s.reg .r7 + 2), s.readMem (s.reg .r7 + 1), s.readMem (s.reg .r7),
        s.reg .r7 + 8⟩
      pc := s.readMem (s.reg .r7 + 7)
      irqState := .idle }

/-- R122: PUSH r writes the old value of `x[r]` at SP - 1 modulo 256 and sets SP to that address, then advances by 2; at address
254 the push is made and then the advance faults. That PUSH R7 stores the old SP is decision D16 (log 16). -/
def Obligations.PushStoresRegisterBelowSp : Prop :=
  (∀ r : Byte, encode (.push r) = [0x45, r]) ∧ OperandFaultsR .push ∧
  ∀ (r : Reg) (s : State),
    (s.pc.toNat ≤ 253 → exec (.push r.toByte) s =
      .next { s with
        mem := Memory.write s.mem (s.reg .r7 - 1) (s.reg r)
        regs := s.regs.set .r7 (s.reg .r7 - 1)
        pc := s.pc + 2 }) ∧
    (s.pc.toNat = 254 → exec (.push r.toByte) s =
      .next (raise (.pcOutOfBounds 256) { s with
        mem := Memory.write s.mem (s.reg .r7 - 1) (s.reg r)
        regs := s.regs.set .r7 (s.reg .r7 - 1) }))

/-- R123: POP r adds one to SP modulo 256, then writes the byte that was at the old SP into `x[r]` (so POP R7 ends with SP equal
to that byte), then advances by 2; memory is unchanged. The order for R7 is decision D16 (log 16). -/
def Obligations.PopLoadsRegisterFromSp : Prop :=
  (∀ r : Byte, encode (.pop r) = [0x46, r]) ∧ OperandFaultsR .pop ∧
  ∀ (r : Reg) (s : State),
    (s.pc.toNat ≤ 253 → exec (.pop r.toByte) s =
      .next { s with
        regs := (s.regs.set .r7 (s.reg .r7 + 1)).set r (s.readMem (s.reg .r7))
        pc := s.pc + 2 }) ∧
    (s.pc.toNat = 254 → exec (.pop r.toByte) s =
      .next (raise (.pcOutOfBounds 256) { s with
        regs := (s.regs.set .r7 (s.reg .r7 + 1)).set r (s.readMem (s.reg .r7)) }))

/-- R101: PRN r appends Num(x[r]) to the trace, then advances by 2; registers and memory are unchanged. -/
def Obligations.PrnEmitsNumber : Prop :=
  (∀ r : Byte, encode (.prn r) = [0x47, r]) ∧ OperandFaultsR .prn ∧
  ∀ (r : Reg) (s : State),
    (s.pc.toNat ≤ 253 → exec (.prn r.toByte) s =
      .next { s with out := s.out ++ [.num (s.reg r)], pc := s.pc + 2 }) ∧
    (s.pc.toNat = 254 → exec (.prn r.toByte) s =
      .next (raise (.pcOutOfBounds 256) { s with out := s.out ++ [.num (s.reg r)] }))

/-- R102: PRA r appends Chr(x[r]) to the trace, then advances by 2; registers and memory are unchanged. -/
def Obligations.PraEmitsCharacter : Prop :=
  (∀ r : Byte, encode (.pra r) = [0x48, r]) ∧ OperandFaultsR .pra ∧
  ∀ (r : Reg) (s : State),
    (s.pc.toNat ≤ 253 → exec (.pra r.toByte) s =
      .next { s with out := s.out ++ [.chr (s.reg r)], pc := s.pc + 2 }) ∧
    (s.pc.toNat = 254 → exec (.pra r.toByte) s =
      .next (raise (.pcOutOfBounds 256) { s with out := s.out ++ [.chr (s.reg r)] }))

/-- R111: CALL r pushes `pc + 2` and goes to `x[r]`, read after the push (so CALL R7 goes to the new SP); at address 254 it faults
before the push. The order for R7 is decision D16 (log 16). -/
def Obligations.CallPushesReturnAddress : Prop :=
  (∀ r : Byte, encode (.call r) = [0x50, r]) ∧ OperandFaultsR .call ∧
  ∀ (r : Reg) (s : State),
    (s.pc.toNat ≤ 253 → exec (.call r.toByte) s =
      .next { s with
        mem := Memory.write s.mem (s.reg .r7 - 1) (s.pc + 2)
        regs := s.regs.set .r7 (s.reg .r7 - 1)
        pc := if r = .r7 then s.reg .r7 - 1 else s.reg r }) ∧
    (s.pc.toNat = 254 → exec (.call r.toByte) s = .next (raise (.pcOutOfBounds 256) s))

/-- R110: JMP r sets `pc` to `x[r]`; nothing else changes, and at address 254 it is legal. -/
def Obligations.JmpGoesToRegister : Prop :=
  (∀ r : Byte, encode (.jmp r) = [0x54, r]) ∧ OperandFaultsR .jmp ∧
  ∀ (r : Reg) (s : State), s.pc.toNat ≤ 254 → exec (.jmp r.toByte) s = .next { s with pc := s.reg r }

/-- R100: LDI r, imm writes the immediate, any of the 256 bytes, into `x[r]`, then advances by 3; at address 253 the register is
written and then the advance faults. -/
def Obligations.LdiLoadsImmediate : Prop :=
  (∀ r imm : Byte, encode (.ldi r imm) = [0x82, r, imm]) ∧ OperandFaultsRI .ldi ∧
  ∀ (r : Reg) (imm : Byte) (s : State),
    (s.pc.toNat ≤ 252 → exec (.ldi r.toByte imm) s =
      .next { s with regs := s.regs.set r imm, pc := s.pc + 3 }) ∧
    (s.pc.toNat = 253 → exec (.ldi r.toByte imm) s =
      .next (raise (.pcOutOfBounds 256) { s with regs := s.regs.set r imm }))

/-- R103: STORE ra, rb writes `x[rb]` at the address `x[ra]`, then advances by 3; registers are unchanged. -/
def Obligations.StoreWritesAddressedByte : Prop :=
  (∀ ra rb : Byte, encode (.store ra rb) = [0x84, ra, rb]) ∧ OperandFaultsRR .store ∧
  ∀ (a b : Reg) (s : State),
    (s.pc.toNat ≤ 252 → exec (.store a.toByte b.toByte) s =
      .next { s with mem := Memory.write s.mem (s.reg a) (s.reg b), pc := s.pc + 3 }) ∧
    (s.pc.toNat = 253 → exec (.store a.toByte b.toByte) s =
      .next (raise (.pcOutOfBounds 256) { s with mem := Memory.write s.mem (s.reg a) (s.reg b) }))

/-- R91, R96: ADD ra, rb writes `(x[ra] + x[rb]) mod 256` into `x[ra]`, then advances by 3; no flag changes. -/
def Obligations.AddIsModulo256 : Prop :=
  (∀ ra rb : Byte, encode (.add ra rb) = [0xA0, ra, rb]) ∧ OperandFaultsRR .add ∧
  ∀ (a b : Reg) (s : State), ∃ v : Byte, v.toNat = ((s.reg a).toNat + (s.reg b).toNat) % 256 ∧
    (s.pc.toNat ≤ 252 → exec (.add a.toByte b.toByte) s =
      .next { s with regs := s.regs.set a v, pc := s.pc + 3 }) ∧
    (s.pc.toNat = 253 → exec (.add a.toByte b.toByte) s =
      .next (raise (.pcOutOfBounds 256) { s with regs := s.regs.set a v }))

/-- R92, R96: MUL ra, rb writes `(x[ra] * x[rb]) mod 256` into `x[ra]`, then advances by 3; no flag changes. -/
def Obligations.MulIsModulo256 : Prop :=
  (∀ ra rb : Byte, encode (.mul ra rb) = [0xA2, ra, rb]) ∧ OperandFaultsRR .mul ∧
  ∀ (a b : Reg) (s : State), ∃ v : Byte, v.toNat = ((s.reg a).toNat * (s.reg b).toNat) % 256 ∧
    (s.pc.toNat ≤ 252 → exec (.mul a.toByte b.toByte) s =
      .next { s with regs := s.regs.set a v, pc := s.pc + 3 }) ∧
    (s.pc.toNat = 253 → exec (.mul a.toByte b.toByte) s =
      .next (raise (.pcOutOfBounds 256) { s with regs := s.regs.set a v }))

/-- R93: CMP ra, rb ORs GT (0x01), EQ (0x02) or LT (0x04) of the unsigned comparison into FL and clears no bit, then advances by 3;
no register changes. That the order is unsigned is decision D15 (log 15). -/
def Obligations.CmpAccumulatesOneFlag : Prop :=
  (∀ ra rb : Byte, encode (.cmp ra rb) = [0xA7, ra, rb]) ∧ OperandFaultsRR .cmp ∧
  ∀ (a b : Reg) (s : State), ∃ bit : Byte,
    ((s.reg b).toNat < (s.reg a).toNat → bit = 0x01) ∧
    ((s.reg a).toNat = (s.reg b).toNat → bit = 0x02) ∧
    ((s.reg a).toNat < (s.reg b).toNat → bit = 0x04) ∧
    (s.pc.toNat ≤ 252 → exec (.cmp a.toByte b.toByte) s =
      .next { s with fl := s.fl ||| bit, pc := s.pc + 3 }) ∧
    (s.pc.toNat = 253 → exec (.cmp a.toByte b.toByte) s =
      .next (raise (.pcOutOfBounds 256) { s with fl := s.fl ||| bit }))

/-! ### The shared operations -/

/-- R35: a read of an address gives the last byte written there; a write changes no other address. -/
def Obligations.ReadAfterWrite : Prop :=
  ∀ (s : State) (a v : Byte),
    (s.writeMem a v).readMem a = v ∧
    (∀ b, b ≠ a → (s.writeMem a v).readMem b = s.readMem b) ∧
    s.writeMem a v = { s with mem := (s.writeMem a v).mem }

/-- R39: a byte written by STORE is what the next opcode fetch at that address sees (decision D19, log 19). -/
def Obligations.StoreIsSeenByTheNextFetch : Prop :=
  ∀ (a b : Reg) (s t u : State), exec (.store a.toByte b.toByte) s = .next t → s.pc.toNat ≤ 253 →
    u.mem = t.mem → u.pc = s.reg a → (fetchWindow u).head? = some (s.reg b)

/-- R79: the sequential advance is an exact sum; past 255 it raises PcOutOfBounds with `pc` unmoved (decision D3, log 3). -/
def Obligations.AdvanceNeverWraps : Prop :=
  ∀ (len : Nat) (s : State),
    (s.pc.toNat + len ≤ 255 → ∃ p : Byte, p.toNat = s.pc.toNat + len ∧ advance len s = { s with pc := p }) ∧
    (255 < s.pc.toNat + len → advance len s = raise (.pcOutOfBounds (s.pc.toNat + len)) s)

/-- R23, R135: raising a fault sets FAULTED and writes the record (the fault, `pc`, the bytes from `pc` that lie below 256, the
registers) and changes nothing else. The record's three bytes are decision D25 (log 23), the rest D14 and D27 (log 14). -/
def Obligations.RaiseRecordsTheFault : Prop :=
  ∀ (f : Fault) (s : State), ∃ rec : FaultRecord,
    raise f s = { s with runState := .faulted, faultRecord := some rec } ∧
    rec.fault = f ∧ rec.pc = s.pc ∧ rec.regs = s.regs ∧ rec.byte0 = s.readMem s.pc ∧
    rec.byte1 = (if s.pc.toNat ≤ 254 then some (s.readMem (s.pc + 1)) else none) ∧
    rec.byte2 = (if s.pc.toNat ≤ 253 then some (s.readMem (s.pc + 2)) else none)

/-- R120, R124: a push writes its byte at SP - 1 modulo 256, makes that address SP, and touches nothing else; no check. The wrap is
decision D4 (log 4). -/
def Obligations.StackPushWritesBelowSp : Prop :=
  ∀ (v : Byte) (s : State),
    (stackPush v s).reg .r7 = s.reg .r7 - 1 ∧
    (stackPush v s).readMem (s.reg .r7 - 1) = v ∧
    (∀ a, a ≠ s.reg .r7 - 1 → (stackPush v s).readMem a = s.readMem a) ∧
    (∀ r, r ≠ .r7 → (stackPush v s).reg r = s.reg r) ∧
    stackPush v s = { s with mem := (stackPush v s).mem, regs := (stackPush v s).regs }

/-- R121, R124: a pop gives the byte at SP, adds one to SP modulo 256, and touches nothing else; no check. The wrap is decision D4
(log 4). -/
def Obligations.StackPopReadsAtSp : Prop :=
  ∀ s : State, stackTop s = s.readMem (s.reg .r7) ∧
    stackDrop s = { s with regs := s.regs.set .r7 (s.reg .r7 + 1) }

/-- R125: at most 256 pushes, then as many pops from any state with the same SP and the same pushed bytes, give the values in
reverse order and SP as before. -/
def Obligations.StackIsLastInFirstOut : Prop :=
  ∀ (vs : List Byte) (s u : State), vs.length ≤ 256 →
    u.reg .r7 = (pushMany vs s).reg .r7 →
    (∀ k < vs.length, u.readMem ((pushMany vs s).reg .r7 + BitVec.ofNat 8 k) =
      (pushMany vs s).readMem ((pushMany vs s).reg .r7 + BitVec.ofNat 8 k)) →
    (popMany vs.length u).1 = vs.reverse ∧ (popMany vs.length u).2.reg .r7 = s.reg .r7

/-- R111, R112: CALL through any register and then RET resumes at the address after the CALL with every register, SP too, as before
the CALL. -/
def Obligations.CallThenRetReturns : Prop :=
  ∀ (r : Reg) (s : State), s.pc.toNat ≤ 253 →
    ∃ t u, exec (.call r.toByte) s = .next t ∧ exec .ret t = .next u ∧ u.pc = s.pc + 2 ∧ u.regs = s.regs

/-- R100, R101 (the source's round trip): LDI of any value into any register and then PRN of it emits exactly that number. -/
def Obligations.LdiThenPrnEmitsTheValue : Prop :=
  ∀ (r : Reg) (v : Byte) (s : State), s.pc.toNat ≤ 250 →
    ∃ t u, exec (.ldi r.toByte v) s = .next t ∧ exec (.prn r.toByte) t = .next u ∧ u.out = s.out ++ [.num v]

/-- R104: the text of Num(v) is the decimal digits of v, most significant first, with no leading zero, and one line end; the text of
Chr(v) is the one character with code point v. Events and this rendering are decision D11 (log 11). -/
def Obligations.TextRenderingOfEvents : Prop :=
  (∀ v : Byte, ∃ ds : List Nat, renderEvent (.num v) = ds.map (fun d => .codePoint (48 + d)) ++ [.lineEnd] ∧
    ds.foldl (fun n d => 10 * n + d) 0 = v.toNat ∧ (∀ d ∈ ds, d ≤ 9) ∧ ds ≠ [] ∧
    (ds.head? = some 0 → v = 0 ∧ ds = [0])) ∧
  (∀ v : Byte, renderEvent (.chr v) = [.codePoint v.toNat])

/-! ### What an instruction leaves unchanged -/

/-- R12, R36: an instruction that stores nothing (all but STORE, PUSH and CALL) leaves every byte of memory as it was, on every
operand and at every address. -/
def Obligations.NonStoringInstructionsKeepMemory : Prop :=
  ∀ (i : Instr) (s t : State), i.op ≠ .store → i.op ≠ .push → i.op ≠ .call → exec i s = .next t →
    ∀ a, t.readMem a = s.readMem a

/-- R36: STORE changes no byte but the one at `x[ra]`; PUSH and CALL change no byte but the one at SP - 1. -/
def Obligations.StoringInstructionsWriteOneByte : Prop :=
  (∀ (ra rb : Byte) (s t : State), exec (.store ra rb) s = .next t →
    ∀ a, (∀ r, Reg.ofByte? ra = some r → a ≠ s.reg r) → t.readMem a = s.readMem a) ∧
  (∀ (r : Byte) (s t : State), exec (.push r) s = .next t → ∀ a, a ≠ pushAddr s → t.readMem a = s.readMem a) ∧
  (∀ (r : Byte) (s t : State), exec (.call r) s = .next t → ∀ a, a ≠ pushAddr s → t.readMem a = s.readMem a) ∧
  (∀ s : State, pushAddr s = s.reg .r7 - 1)

/-- R12: no instruction writes a register outside its row's "writes" column, on any operand and at any address. -/
def Obligations.RegistersOutsideTheWriteColumnKept : Prop :=
  ∀ (i : Instr) (s t : State), exec i s = .next t → ∀ r, r ∉ writtenRegs i → t.reg r = s.reg r

/-- R14: CMP is the only instruction that writes FL. -/
def Obligations.OnlyCmpWritesFlags : Prop :=
  ∀ (i : Instr) (s t : State), i.op ≠ .cmp → exec i s = .next t → t.fl = s.fl

/-- R19, R20, R21, R23, R135: no instruction but IRET writes the controller's state, and none but PRN and PRA the trace; the run state
and the fault record stay, but for HLT and for a raised fault, whose record holds `pc` and the registers as they are left. That
no instruction touches the two `tick` fields is about fields of the model's own (log 5, DESIGN CHOICE), not of the spec's. -/
def Obligations.ControlStateFrame : Prop :=
  ∀ (i : Instr) (s t : State), exec i s = .next t →
    (i.op ≠ .iret → t.irqState = s.irqState) ∧
    (i.op ≠ .prn → i.op ≠ .pra → t.out = s.out) ∧
    t.tickInputs = s.tickInputs ∧ t.tickDraws = s.tickDraws ∧
    ((t.runState = s.runState ∧ t.faultRecord = s.faultRecord) ∨
      (i = .hlt ∧ t.runState = .halted ∧ t.faultRecord = s.faultRecord) ∨
      (t.runState = .faulted ∧ t.pc = s.pc ∧ ∃ f, t.faultRecord = some (faultRecordOf f t)))

/-! ### The cycle -/

/-- R70, R204: a step samples one `tick` bit (the next given one, else a free draw) and runs one cycle with it; in a RUNNING state,
when the bytes at `pc` after the timer check and the interrupt check decode to an instruction, the step is exactly that instruction's
execution there. How `tick` is supplied is the model's DESIGN CHOICE (log 5). -/
def Obligations.StepRunsTheDecodedInstruction : Prop :=
  (∀ s : State, s.runState = .running → ∀ i rest,
    decode (fetchWindow (interruptCheck (timerCheck (tickInput s) (sampleTick s)))) = .ok i rest →
      step s = exec i (interruptCheck (timerCheck (tickInput s) (sampleTick s)))) ∧
  (∀ (s : State) (b : Bool) (bs : List Bool), s.runState = .running → s.tickInputs = b :: bs →
    tickInput s = b ∧ sampleTick s = { s with tickInputs := bs }) ∧
  (∀ s : State, s.runState = .running → s.tickInputs = [] →
    tickInput s = Config.tick s.tickDraws ∧ sampleTick s = { s with tickDraws := s.tickDraws + 1 })

/-- R70, R71, R72: with no tick and no interrupt to take, a cycle is the execution of the instruction at `pc`, and nothing else. -/
def Obligations.QuietCycleIsOneInstruction : Prop :=
  ∀ (s : State) (i : Instr) (rest : List Byte), s.runState = .running →
    (s.irqState = .servicing ∨ s.reg .r5 &&& s.reg .r6 = 0) →
    decode (fetchWindow s) = .ok i rest → cycle false s = exec i s

/-- R77, R78, R80: a cycle that meets the bytes of ANY instruction, register bytes above 7 too, and also where memory ends before they
do, ends as the instruction's execution does: the fetch's own faults and those of the execution are the same. The faults and their order are
decisions D2, D3 and D28 (logs 2, 3, 25). -/
def Obligations.CycleFaultsAsTheInstructionDoes : Prop :=
  ∀ (tick : Bool) (s : State) (i : Instr), s.runState = .running →
    (∀ k b, (encode i)[k]? = some b → (beforeFetch tick s).pc.toNat + k ≤ 255 →
      (beforeFetch tick s).readMem (BitVec.ofNat 8 ((beforeFetch tick s).pc.toNat + k)) = b) →
    cycle tick s = exec i (beforeFetch tick s)

/-- R76: a cycle whose fetch meets a byte that is no opcode of the table raises UnknownOpcode at that `pc` with that byte and does
nothing else: no operand is fetched, `pc` is not advanced, and what the timer check and the interrupt check of the cycle did
stays. -/
def Obligations.UnknownOpcodeFaultsTheCycle : Prop :=
  ∀ (tick : Bool) (s : State), s.runState = .running →
    Op.ofByte? ((beforeFetch tick s).readMem (beforeFetch tick s).pc) = none →
    cycle tick s = .next (raise (.unknownOpcode (beforeFetch tick s).pc
      ((beforeFetch tick s).readMem (beforeFetch tick s).pc)) (beforeFetch tick s))

/-- R81: in a HALTED or FAULTED state a cycle changes nothing, whatever the tick, and neither does a step; the `reset` input makes the
machine run again. -/
def Obligations.TerminalStatesAreInert : Prop :=
  ∀ s : State, s.runState ≠ .running →
    (∀ tick, cycle tick s = .next s) ∧ step s = .next s ∧ (applyReset s).runState = .running

/-- R82, R84, R135: every step of every state answers a next state: no instruction, no bytes, no fault of the spec and no data makes
the model stop (log 14). -/
def Obligations.EveryStepHasANextState : Prop := ∀ s : State, ∃ t, step s = .next t

/-- R71: a tick sets bit 0 of IS and changes no other bit and nothing else; without a tick nothing changes; and every cycle of a
RUNNING state begins with this check. That the timer's bit is bit 0 is decision D6 (log 6). -/
def Obligations.TimerCheckSetsBitZeroOfIs : Prop :=
  (∀ s : State, timerCheck true s = { s with regs := s.regs.set .r6 (s.reg .r6 ||| 0x01) }) ∧
  (∀ s : State, timerCheck false s = s) ∧
  (∀ (tick : Bool) (s : State), s.runState = .running →
    cycle tick s = fetchExecute (interruptCheck (timerCheck tick s)))

/-- R138: an IDLE controller with `x[5] & x[6]` not zero enters the lowest-numbered interrupt set in it, once; with it zero, or while
SERVICING, the check changes nothing. Lowest first is decision D8 (log 8), the stored state D9 (log 9). -/
def Obligations.ArbiterTakesTheLowestEnabledPending : Prop :=
  ∀ s : State,
    (s.irqState = .idle → ∀ i : Fin 8, (s.reg .r5 &&& s.reg .r6).getLsbD i.val = true →
      (∀ j : Fin 8, j < i → (s.reg .r5 &&& s.reg .r6).getLsbD j.val = false) →
      interruptCheck s = interruptEntry i s) ∧
    (s.reg .r5 &&& s.reg .r6 = 0 → interruptCheck s = s) ∧
    (s.irqState = .servicing → interruptCheck s = s)

/-- R140, R141: entry to interrupt `i` clears bit `i` of IS, stores `pc` and `x[0]` to `x[6]` (IS with the bit cleared) in the eight
bytes below SP, lowers SP by 8, takes `pc` from `0xF8 + i` as it reads after the pushes, sets SERVICING, and changes nothing else. -/
def Obligations.InterruptEntrySavesTheContext : Prop :=
  ∀ (i : Fin 8) (s : State),
    let t := interruptEntry i s
    let sp := s.reg .r7
    let is := s.reg .r6 &&& ~~~ (BitVec.ofNat 8 (2 ^ i.val))
    t.readMem (sp - 1) = s.pc ∧ t.readMem (sp - 2) = s.reg .r0 ∧ t.readMem (sp - 3) = s.reg .r1 ∧
    t.readMem (sp - 4) = s.reg .r2 ∧ t.readMem (sp - 5) = s.reg .r3 ∧ t.readMem (sp - 6) = s.reg .r4 ∧
    t.readMem (sp - 7) = s.reg .r5 ∧ t.readMem (sp - 8) = is ∧
    (∀ a : Byte, (∀ k : Nat, 1 ≤ k → k ≤ 8 → a ≠ sp - BitVec.ofNat 8 k) → t.readMem a = s.readMem a) ∧
    t.regs = (s.regs.set .r6 is).set .r7 (sp - 8) ∧
    t.pc = t.readMem (BitVec.ofNat 8 (0xF8 + i.val)) ∧ t.irqState = .servicing ∧
    t = { s with mem := t.mem, regs := t.regs, pc := t.pc, irqState := t.irqState }

/-- R145: an IRET from any state whose SP and whose eight frame bytes are as an entry left them gives back `pc`, `x[0]` to `x[5]` and
SP exactly, `x[6]` with the serviced bit cleared, and an IDLE controller; FL, memory and trace stay as the handler left
them. The spec marks R145 as derived from R140 and R142. -/
def Obligations.EntryThenIretRestoresTheContext : Prop :=
  ∀ (i : Fin 8) (s u : State), u.reg .r7 = (interruptEntry i s).reg .r7 →
    (∀ k : Fin 8, u.readMem (u.reg .r7 + BitVec.ofNat 8 k.val) =
      (interruptEntry i s).readMem (u.reg .r7 + BitVec.ofNat 8 k.val)) →
    exec .iret u = .next { u with
      regs := s.regs.set .r6 (s.reg .r6 &&& ~~~ (BitVec.ofNat 8 (2 ^ i.val)))
      pc := s.pc
      irqState := .idle }

/-- R144: a tick that arrives in the cycle of an IRET run while SERVICING is lost: the cycle ends as it would without it. The spec
marks R144 as its own inference from R140, R142 and R71. That the byte 0x13 is IRET is decision D1 (log 1, PRESUMED). -/
def Obligations.TickInTheIretCycleIsLost : Prop :=
  ∀ s : State, s.runState = .running → s.irqState = .servicing → s.readMem s.pc = 0x13 →
    cycle true s = cycle false s

/-- R139: interrupt entry takes the controller to SERVICING and IRET takes it to IDLE; SERVICING is left only by IRET, and a cycle
that goes from IDLE to SERVICING is one whose interrupt check made the entry of an enabled pending interrupt; while SERVICING the arbiter is not consulted, though step 1 still sets the
timer bit. -/
def Obligations.OnlyEntryAndIretMoveTheController : Prop :=
  (∀ (i : Fin 8) (s : State), (interruptEntry i s).irqState = .servicing) ∧
  (∀ s : State, ∃ t, exec .iret s = .next t ∧ t.irqState = .idle) ∧
  (∀ s : State, s.irqState = .servicing →
    interruptCheck s = s ∧ (timerCheck true s).reg .r6 = s.reg .r6 ||| bitMask timerBit) ∧
  ∀ (tick : Bool) (s t : State), cycle tick s = .next t →
    (s.irqState = .servicing → t.irqState = .idle →
      ∃ rest, decode (fetchWindow (timerCheck tick s)) = .ok .iret rest) ∧
    (s.irqState = .idle → t.irqState = .servicing →
      ∃ i : Fin 8, ((timerCheck tick s).reg .r5 &&& (timerCheck tick s).reg .r6).getLsbD i.val = true ∧
        interruptCheck (timerCheck tick s) = interruptEntry i (timerCheck tick s))

/-- R14, R113: nothing reads FL: a cycle from a state with another FL ends in the same state but for FL. -/
def Obligations.FlagsInfluenceNothingElse : Prop :=
  ∀ (tick : Bool) (s t : State) (f : Byte), cycle tick s = .next t →
    ∃ g, cycle tick { s with fl := f } = .next { t with fl := g }

/-- R84, R71, R72: while IM is 0, a cycle whose instruction does not read `x[6]` carries a difference in bit 0 of `x[6]`, and a
difference of the tick, to no other part of the state. The spec marks the claim as derived from R71 and R72. That the timer's bit
is bit 0 is decision D6 (log 6, PRESUMED). -/
def Obligations.TicksTouchOnlyBitZeroOfIs : Prop :=
  ∀ (s s' : State) (tick tick' : Bool), AgreeUpToTimerBit s s' → s.reg .r5 = 0 →
    (∀ i rest, decode (fetchWindow s) = .ok i rest → Reg.r6 ∉ readRegs i) →
    ∃ t t', cycle tick s = .next t ∧ cycle tick' s' = .next t' ∧ AgreeUpToTimerBit t t'

/-! ### Invariants that every step keeps -/

/-- The memory's canonical form is kept by every step (the model's invariant; log 27). -/
def Obligations.StepKeepsMemoryCanonical : Prop :=
  ∀ s t : State, MemoryCanonical s → step s = .next t → MemoryCanonical t

/-- R14: bits 3 to 7 of FL, once 0, stay 0 in every step. The spec marks this part of R14 as derived from R28 and R93. -/
def Obligations.StepKeepsReservedFlagBitsClear : Prop :=
  ∀ s t : State, FlagsReservedClear s → step s = .next t → FlagsReservedClear t

/-- R23, R135: there is a fault record exactly when FAULTED, kept by every step. -/
def Obligations.StepKeepsRecordMatchingRunState : Prop :=
  ∀ s t : State, RecordMatchesRunState s → step s = .next t → RecordMatchesRunState t

/-- R14, R94, R172: no step clears a bit of FL. -/
def Obligations.StepNeverClearsAFlag : Prop :=
  ∀ s t : State, step s = .next t → s.fl &&& t.fl = s.fl

/-- R21, R74, R101, R102: a step only appends to the trace, and at most one event, since a cycle runs at most one instruction and
only PRN and PRA emit, one event each. -/
def Obligations.StepOnlyAppendsToTheTrace : Prop :=
  ∀ s t : State, step s = .next t → ∃ es : List Event, t.out = s.out ++ es ∧ es.length ≤ 1

/-! ### Reset and the loader -/

/-- R25: after reset `x[0]` to `x[6]`, IM and IS among them, are 0 and SP is 244. -/
def Obligations.ResetRegisterValues : Prop :=
  (∀ r, r ≠ .r7 → State.reset.reg r = 0) ∧ State.reset.reg .r7 = 244

/-- R27, R28, R29, R160, all decision D10 of the spec (log 10): after reset `pc` and FL are 0, the controller is IDLE, the run state
RUNNING, record and trace empty; and the `reset` input gives this state whatever the state was, but for the `tick` inputs
(log 29). -/
def Obligations.ResetControlState : Prop :=
  State.reset.pc = 0 ∧ State.reset.fl = 0 ∧ State.reset.irqState = .idle ∧ State.reset.runState = .running ∧
  State.reset.faultRecord = none ∧ State.reset.out = [] ∧
  ∀ s : State, applyReset s = { State.reset with tickInputs := s.tickInputs, tickDraws := s.tickDraws }

/-- R26, R28, R29: the three invariants hold after reset. That FL is 0 and the record empty is decision D10 (log 10); the canonical form
of memory is the model's own (log 27, DESIGN CHOICE). -/
def Obligations.ResetMeetsTheInvariants : Prop :=
  MemoryCanonical State.reset ∧ FlagsReservedClear State.reset ∧ RecordMatchesRunState State.reset

/-- R26, R43: after reset every byte of memory is 0; the loader puts an image of at most 256 bytes at address 0 upward, so that every
address then reads the image's byte, or 0 past its end, the vector table too; nothing else of the state changes. That the loader's
write is this function, which has the bound of 256 bytes (U21) and touches memory only, is log 24 (DEDUCED). -/
def Obligations.LoaderPlacesTheImage : Prop :=
  (∀ a, State.reset.readMem a = 0) ∧
  ∀ image : List Byte, image.length ≤ 256 → ∃ s, loadImage image State.reset = some s ∧
    (∀ a : Byte, s.readMem a = image[a.toNat]?.getD 0) ∧ s = { State.reset with mem := s.mem }
end

