-- ==== Sys2Proof/Laws/Decode.lean ====
section
/-! SUPPORT. The small lemmas of the decoder and the encoder: register bytes, the opcode table, the three operand formats. -/

namespace Sys2Proof

@[simp] theorem Reg.ofByte?_toByte (r : Reg) : Reg.ofByte? r.toByte = some r := by cases r <;> rfl

theorem Reg.toByte_le (r : Reg) : r.toByte.toNat ≤ 7 := by cases r <;> decide

theorem Reg.ofByte?_cases (b : Byte) :
    (∃ r : Reg, b = r.toByte ∧ Reg.ofByte? b = some r) ∨ (8 ≤ b.toNat ∧ Reg.ofByte? b = none) := by
  rcases b with ⟨⟨n, hn⟩⟩
  by_cases h : n < 8
  · left
    interval_cases n
    exacts [⟨.r0, rfl, rfl⟩, ⟨.r1, rfl, rfl⟩, ⟨.r2, rfl, rfl⟩, ⟨.r3, rfl, rfl⟩, ⟨.r4, rfl, rfl⟩, ⟨.r5, rfl, rfl⟩,
      ⟨.r6, rfl, rfl⟩, ⟨.r7, rfl, rfl⟩]
  · right
    refine ⟨by simpa using h, ?_⟩
    unfold Reg.ofByte?
    split <;> simp_all

theorem Reg.ofByte?_eq_some_iff (b : Byte) (r : Reg) : Reg.ofByte? b = some r ↔ b = r.toByte := by
  constructor
  · intro h
    rcases Reg.ofByte?_cases b with ⟨q, rfl, hq⟩ | ⟨_, hn⟩
    · rw [hq] at h; cases h; rfl
    · rw [hn] at h; cases h
  · rintro rfl; simp

theorem Reg.ofByte?_eq_none_iff (b : Byte) : Reg.ofByte? b = none ↔ 8 ≤ b.toNat := by
  rcases Reg.ofByte?_cases b with ⟨q, rfl, hq⟩ | ⟨h, hn⟩
  · have := Reg.toByte_le q
    constructor
    · intro h; rw [hq] at h; cases h
    · intro h; omega
  · exact ⟨fun _ => h, fun _ => hn⟩

@[simp] theorem regByteOk_toByte (r : Reg) : regByteOk r.toByte = true := by cases r <;> rfl

theorem regByteOk_iff (b : Byte) : regByteOk b = true ↔ ∃ r : Reg, b = r.toByte := by
  rcases Reg.ofByte?_cases b with ⟨q, rfl, _⟩ | ⟨h, hn⟩
  · exact ⟨fun _ => ⟨q, rfl⟩, fun _ => regByteOk_toByte q⟩
  · constructor
    · intro hb; simp only [regByteOk, decide_eq_true_eq] at hb; omega
    · rintro ⟨r, rfl⟩; simp at hn

/-- Every row of the table is found under its own byte. -/
@[simp] theorem Op.ofByte?_code (o : Op) : Op.ofByte? o.code = some o := by cases o <;> rfl

theorem Op.ofByte?_eq_some_iff (b : Byte) (o : Op) : Op.ofByte? b = some o ↔ b = o.code := by
  constructor
  · intro h
    have := List.find?_some h
    exact (by simpa using this : o.code = b).symm
  · rintro rfl; simp

/-- No two rows of the table share a byte (30_encoding.md R54). -/
theorem Op.code_injective {o p : Op} (h : o.code = p.code) : o = p := by
  have := Op.ofByte?_code o
  rw [h, Op.ofByte?_code] at this
  exact (Option.some.inj this).symm

theorem decodeR_cons (mk : Byte → Instr) (r : Reg) (rest : List Byte) :
    decodeR mk (r.toByte :: rest) = .ok (mk r.toByte) rest := by simp [decodeR]

theorem decodeRR_cons (mk : Byte → Byte → Instr) (a b : Reg) (rest : List Byte) :
    decodeRR mk (a.toByte :: b.toByte :: rest) = .ok (mk a.toByte b.toByte) rest := by simp [decodeRR]

theorem decodeRI_cons (mk : Byte → Byte → Instr) (r : Reg) (imm : Byte) (rest : List Byte) :
    decodeRI mk (r.toByte :: imm :: rest) = .ok (mk r.toByte imm) rest := by simp [decodeRI]

/-- All that a format R decode can answer with an instruction. -/
theorem decodeR_ok {mk : Byte → Instr} {bs rest : List Byte} {i : Instr} (h : decodeR mk bs = .ok i rest) :
    ∃ r : Reg, i = mk r.toByte ∧ bs = r.toByte :: rest := by
  cases bs with
  | nil => simp [decodeR] at h
  | cons b bs =>
    rcases Reg.ofByte?_cases b with ⟨r, rfl, _⟩ | ⟨_, hn⟩
    · rw [decodeR_cons] at h; cases h; exact ⟨r, rfl, rfl⟩
    · simp [decodeR, hn] at h

/-- All that a format RR decode can answer with an instruction. -/
theorem decodeRR_ok {mk : Byte → Byte → Instr} {bs rest : List Byte} {i : Instr}
    (h : decodeRR mk bs = .ok i rest) :
    ∃ a b : Reg, i = mk a.toByte b.toByte ∧ bs = a.toByte :: b.toByte :: rest := by
  cases bs with
  | nil => simp [decodeRR] at h
  | cons x bs =>
    rcases Reg.ofByte?_cases x with ⟨a, rfl, _⟩ | ⟨_, hn⟩
    · cases bs with
      | nil => simp [decodeRR] at h
      | cons y bs =>
        rcases Reg.ofByte?_cases y with ⟨b, rfl, _⟩ | ⟨_, hn⟩
        · rw [decodeRR_cons] at h; cases h; exact ⟨a, b, rfl, rfl⟩
        · simp [decodeRR, hn] at h
    · simp [decodeRR, hn] at h

/-- All that a format RI decode can answer with an instruction. -/
theorem decodeRI_ok {mk : Byte → Byte → Instr} {bs rest : List Byte} {i : Instr}
    (h : decodeRI mk bs = .ok i rest) :
    ∃ (r : Reg) (imm : Byte), i = mk r.toByte imm ∧ bs = r.toByte :: imm :: rest := by
  cases bs with
  | nil => simp [decodeRI] at h
  | cons x bs =>
    rcases Reg.ofByte?_cases x with ⟨r, rfl, _⟩ | ⟨_, hn⟩
    · cases bs with
      | nil => simp [decodeRI] at h
      | cons imm bs => rw [decodeRI_cons] at h; cases h; exact ⟨r, imm, rfl, rfl⟩
    · simp [decodeRI, hn] at h

end Sys2Proof
end

