-- ==== Sys2Proof/Laws/State.lean ====
section
/-! SUPPORT. One lemma per field per primitive update of the state, and the laws of the register file. -/

namespace Sys2Proof.Machine

/-! ### The register file -/

@[simp] theorem Regs.get_set_same (g : Regs) (r : Reg) (v : Byte) : (g.set r v).get r = v := by
  cases r <;> rfl

@[simp] theorem Regs.get_set_of_ne {r q : Reg} (h : q ≠ r) (g : Regs) (v : Byte) :
    (g.set r v).get q = g.get q := by
  cases r <;> cases q <;> first | rfl | exact absurd rfl h

theorem Regs.get_set (g : Regs) (r q : Reg) (v : Byte) :
    (g.set r v).get q = if q = r then v else g.get q := by
  by_cases h : q = r
  · subst h; simp
  · simp [h]

theorem Regs.ext_get {g h : Regs} (e : ∀ r, g.get r = h.get r) : g = h := by
  cases g; cases h
  have := e .r0; have := e .r1; have := e .r2; have := e .r3
  have := e .r4; have := e .r5; have := e .r6; have := e .r7
  simp_all [Regs.get]

@[simp] theorem Regs.set_get (g : Regs) (r : Reg) : g.set r (g.get r) = g := by
  cases r <;> rfl

@[simp] theorem Regs.set_set (g : Regs) (r : Reg) (v w : Byte) : (g.set r v).set r w = g.set r w := by
  cases r <;> rfl

theorem Regs.set_comm {r q : Reg} (h : r ≠ q) (g : Regs) (v w : Byte) :
    (g.set r v).set q w = (g.set q w).set r v := by
  cases r <;> cases q <;> first | rfl | exact absurd rfl h

/-! ### Reading one register after an update -/

theorem State.reg_def (s : State) (r : Reg) : s.reg r = s.regs.get r := rfl

@[simp] theorem State.reg_setReg_same (s : State) (r : Reg) (v : Byte) : (s.setReg r v).reg r = v :=
  Regs.get_set_same ..

@[simp] theorem State.reg_setReg_of_ne {r q : Reg} (h : q ≠ r) (s : State) (v : Byte) :
    (s.setReg r v).reg q = s.reg q := Regs.get_set_of_ne h ..

theorem State.reg_setReg (s : State) (r q : Reg) (v : Byte) :
    (s.setReg r v).reg q = if q = r then v else s.reg q := Regs.get_set ..

@[simp] theorem State.setReg_reg (s : State) (r : Reg) : s.setReg r (s.reg r) = s := by
  simp [State.setReg, State.reg]

@[simp] theorem reg_writeMem (s : State) (a v : Byte) (q : Reg) : (s.writeMem a v).reg q = s.reg q := rfl
@[simp] theorem reg_jumpTo (a : Byte) (s : State) (q : Reg) : (jumpTo a s).reg q = s.reg q := rfl
@[simp] theorem reg_emit (e : Event) (s : State) (q : Reg) : (emit e s).reg q = s.reg q := rfl
@[simp] theorem reg_accumulateFlag (b : Byte) (s : State) (q : Reg) : (accumulateFlag b s).reg q = s.reg q := rfl
@[simp] theorem reg_raise (f : Fault) (s : State) (q : Reg) : (raise f s).reg q = s.reg q := rfl

/-! ### Reading one byte of memory after an update -/

theorem State.readMem_def (s : State) (a : Byte) : s.readMem a = Memory.read s.mem a := rfl
@[simp] theorem readMem_setReg (s : State) (r : Reg) (v : Byte) (q : Byte) : (s.setReg r v).readMem q = s.readMem q := rfl
@[simp] theorem readMem_jumpTo (a : Byte) (s : State) (q : Byte) : (jumpTo a s).readMem q = s.readMem q := rfl
@[simp] theorem readMem_emit (e : Event) (s : State) (q : Byte) : (emit e s).readMem q = s.readMem q := rfl
@[simp] theorem readMem_accumulateFlag (b : Byte) (s : State) (q : Byte) : (accumulateFlag b s).readMem q = s.readMem q := rfl
@[simp] theorem readMem_raise (f : Fault) (s : State) (q : Byte) : (raise f s).readMem q = s.readMem q := rfl

/-! ### `setReg`, field by field -/

@[simp] theorem setReg_regs (s : State) (r : Reg) (v : Byte) : (s.setReg r v).regs = s.regs.set r v := rfl
@[simp] theorem setReg_pc (s : State) (r : Reg) (v : Byte) : (s.setReg r v).pc = s.pc := rfl
@[simp] theorem setReg_fl (s : State) (r : Reg) (v : Byte) : (s.setReg r v).fl = s.fl := rfl
@[simp] theorem setReg_mem (s : State) (r : Reg) (v : Byte) : (s.setReg r v).mem = s.mem := rfl
@[simp] theorem setReg_irqState (s : State) (r : Reg) (v : Byte) : (s.setReg r v).irqState = s.irqState := rfl
@[simp] theorem setReg_runState (s : State) (r : Reg) (v : Byte) : (s.setReg r v).runState = s.runState := rfl
@[simp] theorem setReg_faultRecord (s : State) (r : Reg) (v : Byte) : (s.setReg r v).faultRecord = s.faultRecord := rfl
@[simp] theorem setReg_out (s : State) (r : Reg) (v : Byte) : (s.setReg r v).out = s.out := rfl
@[simp] theorem setReg_tickInputs (s : State) (r : Reg) (v : Byte) : (s.setReg r v).tickInputs = s.tickInputs := rfl
@[simp] theorem setReg_tickDraws (s : State) (r : Reg) (v : Byte) : (s.setReg r v).tickDraws = s.tickDraws := rfl

/-! ### `writeMem`, field by field -/

@[simp] theorem writeMem_regs (s : State) (a v : Byte) : (s.writeMem a v).regs = s.regs := rfl
@[simp] theorem writeMem_pc (s : State) (a v : Byte) : (s.writeMem a v).pc = s.pc := rfl
@[simp] theorem writeMem_fl (s : State) (a v : Byte) : (s.writeMem a v).fl = s.fl := rfl
@[simp] theorem writeMem_mem (s : State) (a v : Byte) : (s.writeMem a v).mem = Memory.write s.mem a v := rfl
@[simp] theorem writeMem_irqState (s : State) (a v : Byte) : (s.writeMem a v).irqState = s.irqState := rfl
@[simp] theorem writeMem_runState (s : State) (a v : Byte) : (s.writeMem a v).runState = s.runState := rfl
@[simp] theorem writeMem_faultRecord (s : State) (a v : Byte) : (s.writeMem a v).faultRecord = s.faultRecord := rfl
@[simp] theorem writeMem_out (s : State) (a v : Byte) : (s.writeMem a v).out = s.out := rfl
@[simp] theorem writeMem_tickInputs (s : State) (a v : Byte) : (s.writeMem a v).tickInputs = s.tickInputs := rfl
@[simp] theorem writeMem_tickDraws (s : State) (a v : Byte) : (s.writeMem a v).tickDraws = s.tickDraws := rfl

/-! ### `jumpTo`, field by field -/

@[simp] theorem jumpTo_regs (a : Byte) (s : State) : (jumpTo a s).regs = s.regs := rfl
@[simp] theorem jumpTo_pc (a : Byte) (s : State) : (jumpTo a s).pc = a := rfl
@[simp] theorem jumpTo_fl (a : Byte) (s : State) : (jumpTo a s).fl = s.fl := rfl
@[simp] theorem jumpTo_mem (a : Byte) (s : State) : (jumpTo a s).mem = s.mem := rfl
@[simp] theorem jumpTo_irqState (a : Byte) (s : State) : (jumpTo a s).irqState = s.irqState := rfl
@[simp] theorem jumpTo_runState (a : Byte) (s : State) : (jumpTo a s).runState = s.runState := rfl
@[simp] theorem jumpTo_faultRecord (a : Byte) (s : State) : (jumpTo a s).faultRecord = s.faultRecord := rfl
@[simp] theorem jumpTo_out (a : Byte) (s : State) : (jumpTo a s).out = s.out := rfl
@[simp] theorem jumpTo_tickInputs (a : Byte) (s : State) : (jumpTo a s).tickInputs = s.tickInputs := rfl
@[simp] theorem jumpTo_tickDraws (a : Byte) (s : State) : (jumpTo a s).tickDraws = s.tickDraws := rfl

/-! ### `emit`, field by field -/

@[simp] theorem emit_regs (e : Event) (s : State) : (emit e s).regs = s.regs := rfl
@[simp] theorem emit_pc (e : Event) (s : State) : (emit e s).pc = s.pc := rfl
@[simp] theorem emit_fl (e : Event) (s : State) : (emit e s).fl = s.fl := rfl
@[simp] theorem emit_mem (e : Event) (s : State) : (emit e s).mem = s.mem := rfl
@[simp] theorem emit_irqState (e : Event) (s : State) : (emit e s).irqState = s.irqState := rfl
@[simp] theorem emit_runState (e : Event) (s : State) : (emit e s).runState = s.runState := rfl
@[simp] theorem emit_faultRecord (e : Event) (s : State) : (emit e s).faultRecord = s.faultRecord := rfl
@[simp] theorem emit_out (e : Event) (s : State) : (emit e s).out = s.out ++ [e] := rfl
@[simp] theorem emit_tickInputs (e : Event) (s : State) : (emit e s).tickInputs = s.tickInputs := rfl
@[simp] theorem emit_tickDraws (e : Event) (s : State) : (emit e s).tickDraws = s.tickDraws := rfl

/-! ### `accumulateFlag`, field by field -/

@[simp] theorem accumulateFlag_regs (b : Byte) (s : State) : (accumulateFlag b s).regs = s.regs := rfl
@[simp] theorem accumulateFlag_pc (b : Byte) (s : State) : (accumulateFlag b s).pc = s.pc := rfl
@[simp] theorem accumulateFlag_fl (b : Byte) (s : State) : (accumulateFlag b s).fl = s.fl ||| b := rfl
@[simp] theorem accumulateFlag_mem (b : Byte) (s : State) : (accumulateFlag b s).mem = s.mem := rfl
@[simp] theorem accumulateFlag_irqState (b : Byte) (s : State) : (accumulateFlag b s).irqState = s.irqState := rfl
@[simp] theorem accumulateFlag_runState (b : Byte) (s : State) : (accumulateFlag b s).runState = s.runState := rfl
@[simp] theorem accumulateFlag_faultRecord (b : Byte) (s : State) : (accumulateFlag b s).faultRecord = s.faultRecord := rfl
@[simp] theorem accumulateFlag_out (b : Byte) (s : State) : (accumulateFlag b s).out = s.out := rfl
@[simp] theorem accumulateFlag_tickInputs (b : Byte) (s : State) : (accumulateFlag b s).tickInputs = s.tickInputs := rfl
@[simp] theorem accumulateFlag_tickDraws (b : Byte) (s : State) : (accumulateFlag b s).tickDraws = s.tickDraws := rfl

/-! ### `raise`, field by field -/

@[simp] theorem raise_regs (f : Fault) (s : State) : (raise f s).regs = s.regs := rfl
@[simp] theorem raise_pc (f : Fault) (s : State) : (raise f s).pc = s.pc := rfl
@[simp] theorem raise_fl (f : Fault) (s : State) : (raise f s).fl = s.fl := rfl
@[simp] theorem raise_mem (f : Fault) (s : State) : (raise f s).mem = s.mem := rfl
@[simp] theorem raise_irqState (f : Fault) (s : State) : (raise f s).irqState = s.irqState := rfl
@[simp] theorem raise_runState (f : Fault) (s : State) : (raise f s).runState = .faulted := rfl
@[simp] theorem raise_faultRecord (f : Fault) (s : State) : (raise f s).faultRecord = some (faultRecordOf f s) := rfl
@[simp] theorem raise_out (f : Fault) (s : State) : (raise f s).out = s.out := rfl
@[simp] theorem raise_tickInputs (f : Fault) (s : State) : (raise f s).tickInputs = s.tickInputs := rfl
@[simp] theorem raise_tickDraws (f : Fault) (s : State) : (raise f s).tickDraws = s.tickDraws := rfl

end Sys2Proof.Machine
end

