-- ==== Sys2Proof/Laws/Memory.lean ====
section
/-! SUPPORT. The laws of memory (20_memory.md R35): what a read gives after a write, and that every memory operation keeps
the canonical form. -/

namespace Sys2Proof.Machine

theorem Memory.lookup_insert (m : Memory) (a b : Nat) (v : Byte) :
    Memory.lookup (Memory.insert m a v) b = if b = a then v else Memory.lookup m b := by
  induction m with
  | nil =>
    by_cases h : b = a
    · simp [Memory.insert, Memory.lookup, h]
    · simp [Memory.insert, Memory.lookup, h, Ne.symm h]
  | cons c m ih =>
    obtain ⟨k, w⟩ := c
    by_cases hlt : k < a
    · simp only [Memory.insert, if_pos hlt, Memory.lookup, ih]
      split_ifs <;> first | rfl | omega
    · by_cases heq : k = a
      · simp only [Memory.insert, if_neg hlt, if_pos heq, Memory.lookup]
        split_ifs <;> first | rfl | omega
      · simp only [Memory.insert, if_neg hlt, if_neg heq, Memory.lookup]
        split_ifs <;> first | rfl | omega

theorem Memory.lookup_erase (m : Memory) (a b : Nat) :
    Memory.lookup (Memory.erase m a) b = if b = a then 0 else Memory.lookup m b := by
  induction m with
  | nil => simp [Memory.erase, Memory.lookup]
  | cons c m ih =>
    obtain ⟨k, w⟩ := c
    simp only [Memory.erase] at ih
    by_cases hk : k = a
    · subst hk
      simp only [Memory.erase, List.filter, bne_self_eq_false, ih, Memory.lookup]
      split_ifs <;> first | rfl | omega
    · have hb : (k != a) = true := by simpa using hk
      simp only [Memory.erase, List.filter, hb, Memory.lookup, ih]
      split_ifs <;> first | rfl | omega

/-- The whole of what a write does to reads (20_memory.md R35), for every memory, canonical or not. -/
theorem Memory.read_write (m : Memory) (a b v : Byte) :
    Memory.read (Memory.write m a v) b = if b = a then v else Memory.read m b := by
  have hn : b.toNat = a.toNat ↔ b = a := ⟨BitVec.eq_of_toNat_eq, fun h => h ▸ rfl⟩
  unfold Memory.read Memory.write
  split_ifs with hv hb hb
  · rw [Memory.lookup_erase, if_pos (hn.mpr hb), hv]
  · rw [Memory.lookup_erase, if_neg (mt hn.mp hb)]
  · rw [Memory.lookup_insert, if_pos (hn.mpr hb)]
  · rw [Memory.lookup_insert, if_neg (mt hn.mp hb)]

@[simp] theorem Memory.read_write_same (m : Memory) (a v : Byte) :
    Memory.read (Memory.write m a v) a = v := by rw [Memory.read_write, if_pos rfl]

@[simp] theorem Memory.read_write_of_ne {a b : Byte} (h : b ≠ a) (m : Memory) (v : Byte) :
    Memory.read (Memory.write m a v) b = Memory.read m b := by rw [Memory.read_write, if_neg h]

theorem State.readMem_writeMem (s : State) (a b v : Byte) :
    (s.writeMem a v).readMem b = if b = a then v else s.readMem b := Memory.read_write ..

@[simp] theorem State.readMem_writeMem_same (s : State) (a v : Byte) : (s.writeMem a v).readMem a = v :=
  Memory.read_write_same ..

@[simp] theorem State.readMem_writeMem_of_ne {a b : Byte} (h : b ≠ a) (s : State) (v : Byte) :
    (s.writeMem a v).readMem b = s.readMem b := Memory.read_write_of_ne h ..

@[simp] theorem Memory.read_nil (a : Byte) : Memory.read [] a = 0 := rfl

/-! ### The canonical form -/

theorem Memory.wf_iff (m : Memory) :
    Memory.wf m = true ↔ (∀ c ∈ m, c.1 < 256 ∧ c.2 ≠ 0) ∧ m.Pairwise fun c d => c.1 < d.1 := by
  simp [Memory.wf, List.all_eq_true]

theorem Memory.mem_insert {m : Memory} {a : Nat} {v : Byte} {c : Host.Cell}
    (h : c ∈ Memory.insert m a v) : c = (a, v) ∨ c ∈ m := by
  induction m with
  | nil => exact .inl (by simpa [Memory.insert] using h)
  | cons d m ih =>
    obtain ⟨k, w⟩ := d
    simp only [Memory.insert] at h
    split_ifs at h
    · rcases List.mem_cons.mp h with h | h
      · exact .inr (List.mem_cons.mpr (.inl h))
      · exact (ih h).imp_right fun h => List.mem_cons.mpr (.inr h)
    · exact (List.mem_cons.mp h).imp_right fun h => List.mem_cons.mpr (.inr h)
    · exact List.mem_cons.mp h

theorem Memory.insert_rising {m : Memory} (h : m.Pairwise fun c d => c.1 < d.1) (a : Nat) (v : Byte) :
    (Memory.insert m a v).Pairwise fun c d => c.1 < d.1 := by
  induction m with
  | nil => simp [Memory.insert]
  | cons d m ih =>
    obtain ⟨k, w⟩ := d
    obtain ⟨hd, hm⟩ := List.pairwise_cons.mp h
    simp only [Memory.insert]
    split_ifs with hlt heq
    · refine List.pairwise_cons.mpr ⟨fun c hc => ?_, ih hm⟩
      rcases Memory.mem_insert hc with rfl | hc
      · exact hlt
      · exact hd c hc
    · subst heq
      exact List.pairwise_cons.mpr ⟨hd, hm⟩
    · refine List.pairwise_cons.mpr ⟨fun c hc => ?_, h⟩
      rcases List.mem_cons.mp hc with rfl | hc
      · show a < k; omega
      · have := hd c hc
        show a < c.1; simp only at this; omega

/-- A write keeps the canonical form. -/
theorem Memory.wf_write {m : Memory} (h : Memory.wf m = true) (a v : Byte) :
    Memory.wf (Memory.write m a v) = true := by
  obtain ⟨hc, hp⟩ := (Memory.wf_iff m).mp h
  rw [Memory.wf_iff]
  unfold Memory.write
  split_ifs with hv
  · exact ⟨fun c h => hc c (List.mem_filter.mp h).1, hp.filter _⟩
  · refine ⟨fun c h => ?_, Memory.insert_rising hp _ _⟩
    rcases Memory.mem_insert h with rfl | h
    · exact ⟨a.isLt, hv⟩
    · exact hc c h

theorem Memory.wf_nil : Memory.wf [] = true := rfl

end Sys2Proof.Machine
end

