-- ==== Sys2Proof/Laws/Ops.lean ====
section
/-! SUPPORT. What each shared operation can do, said once: the checks of the operand forms, the advance, the stack, interrupt
entry and return, the arbiter. Later proofs cite these and unfold nothing. -/

namespace Sys2Proof.Machine

/-! ### Raising a fault -/

@[simp] theorem faultRecordOf_fault (f : Fault) (s : State) : (faultRecordOf f s).fault = f := rfl
@[simp] theorem faultRecordOf_pc (f : Fault) (s : State) : (faultRecordOf f s).pc = s.pc := rfl
@[simp] theorem faultRecordOf_regs (f : Fault) (s : State) : (faultRecordOf f s).regs = s.regs := rfl

/-- The record taken after a raise is the record the raise wrote. -/
@[simp] theorem faultRecordOf_raise (f g : Fault) (s : State) : faultRecordOf f (raise g s) = faultRecordOf f s := rfl

/-! ### The operand checks (40_execution_loop.md R77, R78, R80) -/

theorem operandFetch_inRange {k : Nat} {s : State} (h : s.pc.toNat + k ≤ 255) (go : State) :
    operandFetch k s go = go := if_pos h

theorem operandFetch_past {k : Nat} {s : State} (h : 255 < s.pc.toNat + k) (go : State) :
    operandFetch k s go = raise (.pcOutOfBounds (s.pc.toNat + k)) s := if_neg (by omega)

@[simp] theorem regCheck_toByte (r : Reg) (s : State) (go : Reg → State) : regCheck r.toByte s go = go r := by
  simp [regCheck]

theorem regCheck_bad {b : Byte} (h : 8 ≤ b.toNat) (s : State) (go : Reg → State) :
    regCheck b s go = raise (.badRegisterIndex s.pc b) s := by
  simp [regCheck, (Reg.ofByte?_eq_none_iff b).mpr h]

theorem regOperand_toByte {k : Nat} {s : State} (h : s.pc.toNat + k ≤ 255) (r : Reg) (go : Reg → State) :
    regOperand k r.toByte s go = go r := by
  simp [regOperand, operandFetch_inRange h]

theorem regOperand_bad {k : Nat} {s : State} (h : s.pc.toNat + k ≤ 255) {b : Byte} (hb : 8 ≤ b.toNat)
    (go : Reg → State) : regOperand k b s go = raise (.badRegisterIndex s.pc b) s := by
  simp [regOperand, operandFetch_inRange h, regCheck_bad hb]

theorem regOperand_past {k : Nat} {s : State} (h : 255 < s.pc.toNat + k) (b : Byte) (go : Reg → State) :
    regOperand k b s go = raise (.pcOutOfBounds (s.pc.toNat + k)) s := operandFetch_past h _

/-- All that a register operand can do: raise a fault on the unchanged state, or go on with the register its byte names. -/
theorem regOperand_cases (k : Nat) (b : Byte) (s : State) (go : Reg → State) :
    (∃ f, regOperand k b s go = raise f s) ∨
      ∃ r, b = r.toByte ∧ s.pc.toNat + k ≤ 255 ∧ regOperand k b s go = go r := by
  by_cases h : s.pc.toNat + k ≤ 255
  · rcases Reg.ofByte?_cases b with ⟨r, rfl, _⟩ | ⟨hb, _⟩
    · exact .inr ⟨r, rfl, h, regOperand_toByte h r go⟩
    · exact .inl ⟨_, regOperand_bad h hb go⟩
  · exact .inl ⟨_, regOperand_past (by omega) b go⟩

theorem formatR_toByte {s : State} (h : s.pc.toNat + 1 ≤ 255) (r : Reg) (go : Reg → State) :
    formatR r.toByte s go = go r := regOperand_toByte h r go

theorem formatRR_toByte {s : State} (h : s.pc.toNat + 2 ≤ 255) (a b : Reg) (go : Reg → Reg → State) :
    formatRR a.toByte b.toByte s go = go a b := by
  rw [formatRR, regOperand_toByte (by omega), regOperand_toByte h]

theorem formatRI_toByte {s : State} (h : s.pc.toNat + 2 ≤ 255) (r : Reg) (go : Reg → State) :
    formatRI r.toByte s go = go r := by
  rw [formatRI, regOperand_toByte (by omega), operandFetch_inRange h]

/-- All that format R can do. -/
theorem formatR_cases (b : Byte) (s : State) (go : Reg → State) :
    (∃ f, formatR b s go = raise f s) ∨
      ∃ r, b = r.toByte ∧ s.pc.toNat + 1 ≤ 255 ∧ formatR b s go = go r := regOperand_cases 1 b s go

/-- All that format RR can do. -/
theorem formatRR_cases (ra rb : Byte) (s : State) (go : Reg → Reg → State) :
    (∃ f, formatRR ra rb s go = raise f s) ∨
      ∃ a b, ra = a.toByte ∧ rb = b.toByte ∧ s.pc.toNat + 2 ≤ 255 ∧ formatRR ra rb s go = go a b := by
  unfold formatRR
  rcases regOperand_cases 1 ra s fun a => regOperand 2 rb s fun b => go a b with ⟨f, h⟩ | ⟨a, ha, _, h⟩
  · exact .inl ⟨f, h⟩
  · rcases regOperand_cases 2 rb s fun b => go a b with ⟨f, h'⟩ | ⟨b, hb, h2, h'⟩
    · exact .inl ⟨f, h.trans h'⟩
    · exact .inr ⟨a, b, ha, hb, h2, h.trans h'⟩

/-- All that format RI can do. -/
theorem formatRI_cases (b : Byte) (s : State) (go : Reg → State) :
    (∃ f, formatRI b s go = raise f s) ∨
      ∃ r, b = r.toByte ∧ s.pc.toNat + 2 ≤ 255 ∧ formatRI b s go = go r := by
  unfold formatRI
  rcases regOperand_cases 1 b s fun d => operandFetch 2 s (go d) with ⟨f, h⟩ | ⟨r, hr, _, h⟩
  · exact .inl ⟨f, h⟩
  · by_cases h2 : s.pc.toNat + 2 ≤ 255
    · exact .inr ⟨r, hr, h2, h.trans (operandFetch_inRange h2 _)⟩
    · exact .inl ⟨_, h.trans (operandFetch_past (by omega) _)⟩

/-! ### The advance (40_execution_loop.md R79) -/

theorem advance_inRange {len : Nat} {s : State} (h : s.pc.toNat + len ≤ 255) :
    advance len s = { s with pc := s.pc + BitVec.ofNat 8 len } := by
  have e : BitVec.ofNat 8 (s.pc.toNat + len) = s.pc + BitVec.ofNat 8 len := by
    apply BitVec.eq_of_toNat_eq; simp
  simp [advance, if_pos h, e]

theorem advance_past {len : Nat} {s : State} (h : 255 < s.pc.toNat + len) :
    advance len s = raise (.pcOutOfBounds (s.pc.toNat + len)) s := if_neg (by omega)

/-- All that an advance can do. -/
theorem advance_cases (len : Nat) (s : State) :
    (∃ p, advance len s = { s with pc := p }) ∨ ∃ f, advance len s = raise f s := by
  by_cases h : s.pc.toNat + len ≤ 255
  · exact .inl ⟨_, advance_inRange h⟩
  · exact .inr ⟨_, advance_past (by omega)⟩

/-! ### The stack (44_stack.md R120, R121) -/

theorem stackPush_eq (v : Byte) (s : State) :
    stackPush v s = { s with
      mem := Memory.write s.mem (s.reg .sp - 1) v, regs := s.regs.set .sp (s.reg .sp - 1) } := rfl

theorem stackDrop_eq (s : State) : stackDrop s = { s with regs := s.regs.set .sp (s.reg .sp + 1) } := rfl

theorem popInto_eq (r : Reg) (s : State) :
    popInto r s = { s with regs := (s.regs.set .sp (s.reg .sp + 1)).set r (s.readMem (s.reg .sp)) } := rfl

@[simp] theorem stackPush_sp (v : Byte) (s : State) : (stackPush v s).reg .r7 = s.reg .r7 - 1 :=
  State.reg_setReg_same ..

@[simp] theorem stackPush_reg {r : Reg} (h : r ≠ .r7) (v : Byte) (s : State) : (stackPush v s).reg r = s.reg r :=
  State.reg_setReg_of_ne h ..

theorem stackPush_readMem (v a : Byte) (s : State) :
    (stackPush v s).readMem a = if a = s.reg .r7 - 1 then v else s.readMem a := Memory.read_write ..

@[simp] theorem stackDrop_sp (s : State) : (stackDrop s).reg .r7 = s.reg .r7 + 1 := State.reg_setReg_same ..

@[simp] theorem stackDrop_reg {r : Reg} (h : r ≠ .r7) (s : State) : (stackDrop s).reg r = s.reg r :=
  State.reg_setReg_of_ne h ..

@[simp] theorem stackDrop_readMem (s : State) (a : Byte) : (stackDrop s).readMem a = s.readMem a := rfl

@[simp] theorem popInto_reg_same (r : Reg) (s : State) : (popInto r s).reg r = s.readMem (s.reg .r7) :=
  State.reg_setReg_same ..

theorem popInto_reg_of_ne {r q : Reg} (h : q ≠ r) (s : State) : (popInto r s).reg q = (stackDrop s).reg q :=
  State.reg_setReg_of_ne h ..

@[simp] theorem popInto_readMem (r : Reg) (s : State) (a : Byte) : (popInto r s).readMem a = s.readMem a := rfl

/-! ### Interrupt entry and return (60_exceptions.md R140, R142) -/

/-- IRET as one update of the state. -/
theorem interruptReturn_eq (s : State) :
    interruptReturn s = { s with
      regs := ⟨s.readMem (s.reg .sp + 6), s.readMem (s.reg .sp + 5), s.readMem (s.reg .sp + 4),
        s.readMem (s.reg .sp + 3), s.readMem (s.reg .sp + 2), s.readMem (s.reg .sp + 1), s.readMem (s.reg .sp),
        s.reg .sp + 8⟩
      pc := s.readMem (s.reg .sp + 7)
      irqState := .idle } := by
  simp only [interruptReturn, restoredRegs, List.foldl, popInto, stackDrop, stackTop, State.setReg, State.reg,
    State.readMem, Regs.get, Regs.set, BitVec.add_assoc]
  rfl

/-- The context an entry saves, as one update of the state: the eight writes in their order. -/
theorem saveContext_eq (i : Fin 8) (s : State) :
    saveContext i s = { s with
      regs := (s.regs.set .is (s.reg .is &&& ~~~ bitMask i)).set .sp (s.reg .sp - 8)
      mem := [(1, s.pc), (2, s.reg .r0), (3, s.reg .r1), (4, s.reg .r2), (5, s.reg .r3), (6, s.reg .r4),
        (7, s.reg .r5), (8, s.reg .is &&& ~~~ bitMask i)].foldl
          (fun (m : Memory) (c : Byte × Byte) => Memory.write m (s.reg .sp - c.1) c.2) s.mem } := by
  have h (x a b : Byte) : x - a - b = x - (a + b) := by bv_omega
  simp only [saveContext, savedRegs, List.foldl, pushReg, stackPush, pushAddr, State.setReg, State.writeMem,
    State.reg, Regs.get, Regs.set, h]
  rfl

/-- Nothing but memory, registers, `pc` and the controller's state is touched by an entry. -/
theorem interruptEntry_frame (i : Fin 8) (s : State) :
    interruptEntry i s = { s with
      mem := (interruptEntry i s).mem, regs := (interruptEntry i s).regs, pc := (interruptEntry i s).pc,
      irqState := .servicing } := by
  simp [interruptEntry, saveContext_eq]

@[simp] theorem interruptEntry_fl (i : Fin 8) (s : State) : (interruptEntry i s).fl = s.fl := by
  simp [interruptEntry, saveContext_eq]
@[simp] theorem interruptEntry_runState (i : Fin 8) (s : State) : (interruptEntry i s).runState = s.runState := by
  simp [interruptEntry, saveContext_eq]
@[simp] theorem interruptEntry_faultRecord (i : Fin 8) (s : State) : (interruptEntry i s).faultRecord = s.faultRecord := by
  simp [interruptEntry, saveContext_eq]
@[simp] theorem interruptEntry_out (i : Fin 8) (s : State) : (interruptEntry i s).out = s.out := by
  simp [interruptEntry, saveContext_eq]
@[simp] theorem interruptEntry_tickInputs (i : Fin 8) (s : State) : (interruptEntry i s).tickInputs = s.tickInputs := by
  simp [interruptEntry, saveContext_eq]
@[simp] theorem interruptEntry_tickDraws (i : Fin 8) (s : State) : (interruptEntry i s).tickDraws = s.tickDraws := by
  simp [interruptEntry, saveContext_eq]
@[simp] theorem interruptEntry_irqState (i : Fin 8) (s : State) : (interruptEntry i s).irqState = .servicing := by
  simp [interruptEntry, saveContext_eq]

@[simp] theorem interruptReturn_mem (s : State) : (interruptReturn s).mem = s.mem := by
  rw [interruptReturn_eq]
@[simp] theorem interruptReturn_fl (s : State) : (interruptReturn s).fl = s.fl := by
  rw [interruptReturn_eq]
@[simp] theorem interruptReturn_runState (s : State) : (interruptReturn s).runState = s.runState := by
  rw [interruptReturn_eq]
@[simp] theorem interruptReturn_faultRecord (s : State) : (interruptReturn s).faultRecord = s.faultRecord := by
  rw [interruptReturn_eq]
@[simp] theorem interruptReturn_out (s : State) : (interruptReturn s).out = s.out := by
  rw [interruptReturn_eq]
@[simp] theorem interruptReturn_tickInputs (s : State) : (interruptReturn s).tickInputs = s.tickInputs := by
  rw [interruptReturn_eq]
@[simp] theorem interruptReturn_tickDraws (s : State) : (interruptReturn s).tickDraws = s.tickDraws := by
  rw [interruptReturn_eq]
@[simp] theorem interruptReturn_irqState (s : State) : (interruptReturn s).irqState = .idle := by
  rw [interruptReturn_eq]

/-- The registers after an entry. -/
theorem interruptEntry_regs (i : Fin 8) (s : State) :
    (interruptEntry i s).regs = (s.regs.set .is (s.reg .is &&& ~~~ bitMask i)).set .sp (s.reg .sp - 8) := by
  simp [interruptEntry, saveContext_eq]

/-! ### The arbiter (60_exceptions.md R138) -/

/-- Enabled and pending is one bit of `x[5] & x[6]`. -/
theorem enabled_and_pending (s : State) (i : Fin 8) :
    (enabled s i && pending s i) = (s.reg .im &&& s.reg .is).getLsbD i.val := by
  simp [enabled, pending]

theorem arbiter_some {s : State} {i : Fin 8} (h : arbiter s = some i) :
    (s.reg .im &&& s.reg .is).getLsbD i.val = true := by
  rw [← enabled_and_pending]
  exact List.find?_some (p := fun i => enabled s i && pending s i) h

theorem mem_scanOrder (i : Fin 8) : i ∈ scanOrder := by
  revert i; decide

theorem arbiter_none_iff (s : State) : arbiter s = none ↔ s.reg .im &&& s.reg .is = 0 := by
  rw [arbiter, List.find?_eq_none]
  simp only [enabled_and_pending, Bool.not_eq_true]
  constructor
  · intro h
    apply BitVec.eq_of_getLsbD_eq
    intro k hk
    simpa using h ⟨k, hk⟩ (mem_scanOrder _)
  · intro h i _
    simp [h]

/-- All that the interrupt check can do. -/
theorem interruptCheck_cases (s : State) :
    interruptCheck s = s ∨
      ∃ i, s.irqState = .idle ∧ arbiter s = some i ∧ interruptCheck s = interruptEntry i s := by
  unfold interruptCheck
  cases h : s.irqState with
  | servicing => exact .inl rfl
  | idle =>
    cases ha : arbiter s with
    | none => exact .inl rfl
    | some i => exact .inr ⟨i, rfl, rfl, rfl⟩

theorem interruptCheck_servicing {s : State} (h : s.irqState = .servicing) : interruptCheck s = s := by
  simp [interruptCheck, h]

theorem interruptCheck_nothing {s : State} (h : s.reg .im &&& s.reg .is = 0) : interruptCheck s = s := by
  unfold interruptCheck
  rw [(arbiter_none_iff s).mpr h]
  cases s.irqState <;> rfl

theorem timerCheck_true (s : State) : timerCheck true s = s.setReg .is (s.reg .is ||| 0x01) := rfl

@[simp] theorem timerCheck_pc (tick : Bool) (s : State) : (timerCheck tick s).pc = s.pc := rfl
@[simp] theorem timerCheck_fl (tick : Bool) (s : State) : (timerCheck tick s).fl = s.fl := rfl
@[simp] theorem timerCheck_mem (tick : Bool) (s : State) : (timerCheck tick s).mem = s.mem := rfl
@[simp] theorem timerCheck_irqState (tick : Bool) (s : State) : (timerCheck tick s).irqState = s.irqState := rfl
@[simp] theorem timerCheck_runState (tick : Bool) (s : State) : (timerCheck tick s).runState = s.runState := rfl
@[simp] theorem timerCheck_faultRecord (tick : Bool) (s : State) : (timerCheck tick s).faultRecord = s.faultRecord := rfl
@[simp] theorem timerCheck_out (tick : Bool) (s : State) : (timerCheck tick s).out = s.out := rfl
@[simp] theorem timerCheck_tickInputs (tick : Bool) (s : State) : (timerCheck tick s).tickInputs = s.tickInputs := rfl
@[simp] theorem timerCheck_tickDraws (tick : Bool) (s : State) : (timerCheck tick s).tickDraws = s.tickDraws := rfl

@[simp] theorem timerCheck_false (s : State) : timerCheck false s = s := by simp [timerCheck]

/-! ### The cycle and the step's input -/

/-- No instruction stops the machine (60_exceptions.md R135 makes every fault a state). -/
theorem exec_next (i : Instr) (s : State) : ∃ t, exec i s = .next t := by
  cases i <;> exact ⟨_, rfl⟩

theorem cycle_running {s : State} (h : s.runState = .running) (tick : Bool) :
    cycle tick s = fetchExecute (beforeFetch tick s) := by
  simp [cycle, h]

theorem cycle_terminal {s : State} (h : s.runState ≠ .running) (tick : Bool) : cycle tick s = .next s := by
  unfold cycle
  cases hs : s.runState <;> first | rfl | exact absurd hs h

theorem sampleTick_terminal {s : State} (h : s.runState ≠ .running) : sampleTick s = s := by
  unfold sampleTick
  cases hs : s.runState <;> first | rfl | exact absurd hs h

/-- Sampling `tick` changes only the two fields that supply it. -/
theorem sampleTick_frame (s : State) :
    sampleTick s = { s with tickInputs := (sampleTick s).tickInputs, tickDraws := (sampleTick s).tickDraws } := by
  unfold sampleTick
  cases hr : s.runState <;> cases ht : s.tickInputs <;> simp [← hr, ← ht]

/-! ### What an operation keeps of the canonical memory -/

theorem stackPush_memoryCanonical {s : State} (h : Memory.wf s.mem = true) (v : Byte) :
    Memory.wf (stackPush v s).mem = true := Memory.wf_write h ..

theorem saveContext_memoryCanonical {s : State} (h : Memory.wf s.mem = true) (i : Fin 8) :
    Memory.wf (saveContext i s).mem = true := by
  simp only [saveContext, savedRegs, List.foldl, pushReg]
  iterate 8 apply stackPush_memoryCanonical
  exact h

theorem interruptEntry_memoryCanonical {s : State} (h : Memory.wf s.mem = true) (i : Fin 8) :
    Memory.wf (interruptEntry i s).mem = true := saveContext_memoryCanonical h i

theorem writeImage_memoryCanonical (bs : List Byte) (a : Nat) {m : Memory} (h : Memory.wf m = true) :
    Memory.wf (writeImage bs a m) = true := by
  induction bs generalizing a m with
  | nil => exact h
  | cons b bs ih => exact ih _ (Memory.wf_write h _ _)

theorem reset_memoryCanonical : Memory.wf State.reset.mem = true := rfl

end Sys2Proof.Machine
end

