-- ==== Sys2Proof/Laws/Exec.lean ====
section
/-! SUPPORT. All that the execution of an instruction can do, said once: `exec_cases`. Frames and invariants follow from it
without unfolding a meaning. -/

namespace Sys2Proof.Machine

/-- The effect of an instruction on its operands, before its `pc` update (40_execution_loop.md R80 e). HLT and IRET stand in
`exec_cases` themselves. -/
inductive Effect : Instr → State → State → Prop where
  | ret (s : State) : Effect .ret s (stackDrop s)
  | push (r : Reg) (s : State) : Effect (.push r.toByte) s (stackPush (s.reg r) s)
  | pop (r : Reg) (s : State) : Effect (.pop r.toByte) s (popInto r s)
  | prn (r : Reg) (s : State) : Effect (.prn r.toByte) s (emit (.num (s.reg r)) s)
  | pra (r : Reg) (s : State) : Effect (.pra r.toByte) s (emit (.chr (s.reg r)) s)
  | call (r : Reg) (s : State) (ret : Byte) : Effect (.call r.toByte) s (stackPush ret s)
  | jmp (r : Reg) (s : State) : Effect (.jmp r.toByte) s s
  | ldi (r : Reg) (imm : Byte) (s : State) : Effect (.ldi r.toByte imm) s (s.setReg r imm)
  | store (a b : Reg) (s : State) : Effect (.store a.toByte b.toByte) s (s.writeMem (s.reg a) (s.reg b))
  | add (a b : Reg) (s : State) : Effect (.add a.toByte b.toByte) s (s.setReg a (aluAdd (s.reg a) (s.reg b)))
  | mul (a b : Reg) (s : State) : Effect (.mul a.toByte b.toByte) s (s.setReg a (aluMul (s.reg a) (s.reg b)))
  | cmp (a b : Reg) (s : State) :
      Effect (.cmp a.toByte b.toByte) s (accumulateFlag (compareFlag (s.reg a) (s.reg b)) s)

/-- After an effect: `pc` is updated, or the advance faults (40_execution_loop.md R80 f). -/
inductive Moved (u : State) : State → Prop where
  | pc (p : Byte) : Moved u { u with pc := p }
  | fault (f : Fault) : Moved u (raise f u)

theorem advance_moved (len : Nat) (u : State) : Moved u (advance len u) := by
  rcases advance_cases len u with ⟨p, h⟩ | ⟨f, h⟩ <;> rw [h]
  exacts [.pc p, .fault f]

/-- All that `exec` can do: raise a fault on the unchanged state, halt, return from an interrupt, or have its effect and then move
`pc` or fault there. -/
theorem exec_cases {i : Instr} {s t : State} (h : exec i s = .next t) :
    (∃ f, t = raise f s) ∨ (i = .hlt ∧ t = { s with runState := .halted }) ∨
      (i = .iret ∧ t = interruptReturn s) ∨ ∃ u, Effect i s u ∧ Moved u t := by
  have one {b : Byte} {j : Instr} {go : Reg → State} (ht : formatR b s go = t)
      (hg : ∀ r, b = r.toByte → s.pc.toNat + 1 ≤ 255 → (∃ f, go r = raise f s) ∨ ∃ u, Effect j s u ∧ Moved u (go r)) :
      (∃ f, t = raise f s) ∨ ∃ u, Effect j s u ∧ Moved u t := by
    subst ht
    rcases formatR_cases b s go with ⟨f, h⟩ | ⟨r, hr, h1, h⟩ <;> rw [h]
    exacts [.inl ⟨f, rfl⟩, hg r hr h1]
  have two {x y : Byte} {j : Instr} {go : Reg → Reg → State} (ht : formatRR x y s go = t)
      (hg : ∀ a b, x = a.toByte → y = b.toByte → ∃ u, Effect j s u ∧ Moved u (go a b)) :
      (∃ f, t = raise f s) ∨ ∃ u, Effect j s u ∧ Moved u t := by
    subst ht
    rcases formatRR_cases x y s go with ⟨f, h⟩ | ⟨a, b, ha, hb, _, h⟩ <;> rw [h]
    exacts [.inl ⟨f, rfl⟩, .inr (hg a b ha hb)]
  have wrap {j : Instr} (h : (∃ f, t = raise f s) ∨ ∃ u, Effect j s u ∧ Moved u t) :
      (∃ f, t = raise f s) ∨ (j = .hlt ∧ t = { s with runState := .halted }) ∨
        (j = .iret ∧ t = interruptReturn s) ∨ ∃ u, Effect j s u ∧ Moved u t :=
    h.imp_right fun h => .inr (.inr h)
  cases i <;> injection h with h
  case hlt => exact .inr (.inl ⟨rfl, h.symm⟩)
  case iret => exact .inr (.inr (.inl ⟨rfl, h.symm⟩))
  case ret => exact .inr (.inr (.inr ⟨_, .ret s, h ▸ .pc _⟩))
  case push => exact wrap (one h fun r hr _ => .inr ⟨_, hr ▸ .push r s, advance_moved ..⟩)
  case pop => exact wrap (one h fun r hr _ => .inr ⟨_, hr ▸ .pop r s, advance_moved ..⟩)
  case prn => exact wrap (one h fun r hr _ => .inr ⟨_, hr ▸ .prn r s, advance_moved ..⟩)
  case pra => exact wrap (one h fun r hr _ => .inr ⟨_, hr ▸ .pra r s, advance_moved ..⟩)
  case jmp => exact wrap (one h fun r hr _ => .inr ⟨_, hr ▸ .jmp r s, .pc _⟩)
  case call =>
    refine wrap (one h fun r hr _ => ?_)
    unfold callThrough
    split_ifs
    · exact .inr ⟨_, hr ▸ .call r s _, .pc _⟩
    · exact .inl ⟨_, rfl⟩
  case ldi r imm =>
    subst h
    rcases formatRI_cases r s fun d => advance 3 (s.setReg d imm) with ⟨f, h⟩ | ⟨d, rfl, _, h⟩ <;> rw [h]
    · exact .inl ⟨f, rfl⟩
    · exact .inr (.inr (.inr ⟨_, .ldi d imm s, advance_moved ..⟩))
  case store => exact wrap (two h fun a b ha hb => ⟨_, ha ▸ hb ▸ .store a b s, advance_moved ..⟩)
  case add => exact wrap (two h fun a b ha hb => ⟨_, ha ▸ hb ▸ .add a b s, advance_moved ..⟩)
  case mul => exact wrap (two h fun a b ha hb => ⟨_, ha ▸ hb ▸ .mul a b s, advance_moved ..⟩)
  case cmp => exact wrap (two h fun a b ha hb => ⟨_, ha ▸ hb ▸ .cmp a b s, advance_moved ..⟩)

/-- An effect leaves `pc`, the controller, the run state, the fault record and the `tick` inputs alone. -/
theorem Effect.keeps {i : Instr} {s u : State} (h : Effect i s u) :
    u.pc = s.pc ∧ u.irqState = s.irqState ∧ u.runState = s.runState ∧ u.faultRecord = s.faultRecord ∧
      u.tickInputs = s.tickInputs ∧ u.tickDraws = s.tickDraws := by
  cases h <;> exact ⟨rfl, rfl, rfl, rfl, rfl, rfl⟩

/-- Moving `pc` or faulting there leaves everything an effect writes alone. -/
theorem Moved.keeps {u t : State} (h : Moved u t) :
    t.regs = u.regs ∧ t.mem = u.mem ∧ t.fl = u.fl ∧ t.out = u.out ∧ t.irqState = u.irqState ∧
      t.tickInputs = u.tickInputs ∧ t.tickDraws = u.tickDraws := by
  cases h <;> exact ⟨rfl, rfl, rfl, rfl, rfl, rfl, rfl⟩

/-- An effect keeps the canonical memory. -/
theorem Effect.memoryCanonical {i : Instr} {s u : State} (h : Effect i s u) (hs : Memory.wf s.mem = true) :
    Memory.wf u.mem = true := by
  cases h <;> first | exact hs | exact Memory.wf_write hs ..

end Sys2Proof.Machine
end

