-- ==== Sys2Proof/Laws/PerInstr.lean ====
section
/-! SUPPORT. Per-instruction facts about the syntax. EncodeLength: an encoding is one opcode byte and the operand bytes its
row has, 1 to 3 bytes in all (30_encoding.md R50). -/

namespace Sys2Proof.Laws.EncodeLength

def Statement (i : Instr) : Prop :=
  (encode i).length = i.op.size ∧ (encode i).head? = some i.op.code ∧ 1 ≤ i.op.size ∧ i.op.size ≤ 3

/-- Every row of the table has 1 to 3 bytes (30_encoding.md R50). -/
theorem size_bounds (o : Op) : 1 ≤ o.size ∧ o.size ≤ 3 := by cases o <;> decide

theorem hlt : Statement .hlt := ⟨rfl, rfl, size_bounds _⟩
theorem ret : Statement .ret := ⟨rfl, rfl, size_bounds _⟩
theorem iret : Statement .iret := ⟨rfl, rfl, size_bounds _⟩
theorem push (r : Byte) : Statement (.push r) := ⟨rfl, rfl, size_bounds _⟩
theorem pop (r : Byte) : Statement (.pop r) := ⟨rfl, rfl, size_bounds _⟩
theorem prn (r : Byte) : Statement (.prn r) := ⟨rfl, rfl, size_bounds _⟩
theorem pra (r : Byte) : Statement (.pra r) := ⟨rfl, rfl, size_bounds _⟩
theorem call (r : Byte) : Statement (.call r) := ⟨rfl, rfl, size_bounds _⟩
theorem jmp (r : Byte) : Statement (.jmp r) := ⟨rfl, rfl, size_bounds _⟩
theorem ldi (r imm : Byte) : Statement (.ldi r imm) := ⟨rfl, rfl, size_bounds _⟩
theorem store (ra rb : Byte) : Statement (.store ra rb) := ⟨rfl, rfl, size_bounds _⟩
theorem add (ra rb : Byte) : Statement (.add ra rb) := ⟨rfl, rfl, size_bounds _⟩
theorem mul (ra rb : Byte) : Statement (.mul ra rb) := ⟨rfl, rfl, size_bounds _⟩
theorem cmp (ra rb : Byte) : Statement (.cmp ra rb) := ⟨rfl, rfl, size_bounds _⟩

end Sys2Proof.Laws.EncodeLength
end

