-- ==== Sys2Proof/Tests/Slice0.lean ====
section
/-! SUPPORT. The model's own tests: the words of 30_encoding.md R54 written out bit by bit, the WellFormed smoke, single cycles from
the vectors of 95_test_vectors.md (each test names its vector), and one witness per statement that has hypotheses. -/

open Sys2Proof Sys2Proof.Machine

namespace Sys2Proof.Tests

/-! ### Helpers -/

/-- The reset state at another `pc`. -/
def atPc (p : Byte) : State := { State.reset with pc := p }

/-- The reset state with `pc` moved and the bytes laid out from there. -/
def code (p : Byte) (bs : List Byte) : State := placeAtPc bs 0 (atPc p)

/-- Registers set one after the other. -/
def withRegs (rs : List (Reg × Byte)) (s : State) : State := rs.foldl (fun t r => t.setReg r.1 r.2) s

/-- Memory bytes set one after the other. -/
def withMem (ms : List (Byte × Byte)) (s : State) : State := ms.foldl (fun t m => t.writeMem m.1 m.2) s

/-- The state after one cycle. -/
def after (tick : Bool) (s : State) : State :=
  match cycle tick s with
  | .next t => t
  | .fault _ => s
  | .refused _ => s

/-! ### Decoding: every row of R54 (opcode bytes D1), operands by R51 -/

theorem test_decode_hlt : decode [0b00000001] = .ok .hlt [] := by decide
theorem test_decode_ret : decode [0b00010001] = .ok .ret [] := by decide
theorem test_decode_iret : decode [0b00010011] = .ok .iret [] := by decide
theorem test_decode_push : decode [0b01000101, 0b00000110] = .ok (.push 6) [] := by decide
theorem test_decode_pop : decode [0b01000110, 0b00000101] = .ok (.pop 5) [] := by decide
theorem test_decode_prn : decode [0b01000111, 0b00000010] = .ok (.prn 2) [] := by decide
theorem test_decode_pra : decode [0b01001000, 0b00000100] = .ok (.pra 4) [] := by decide
theorem test_decode_call : decode [0b01010000, 0b00000111] = .ok (.call 7) [] := by decide
theorem test_decode_jmp : decode [0b01010100, 0b00000011] = .ok (.jmp 3) [] := by decide
theorem test_decode_ldi : decode [0b10000010, 0b00000001, 0b10000001] = .ok (.ldi 1 0x81) [] := by decide
theorem test_decode_store : decode [0b10000100, 0b00000010, 0b00000101] = .ok (.store 2 5) [] := by decide
theorem test_decode_add : decode [0b10100000, 0b00000110, 0b00000000] = .ok (.add 6 0) [] := by decide
theorem test_decode_mul : decode [0b10100010, 0b00000001, 0b00000100] = .ok (.mul 1 4) [] := by decide
theorem test_decode_cmp : decode [0b10100111, 0b00000111, 0b00000011] = .ok (.cmp 7 3) [] := by decide

/-- X3: 0x83 is no instruction; R55: neither is 0x00. -/
theorem test_decode_unknown :
    decode [0x83, 0, 0] = .reject (.unknownOpcode 0x83) ∧ decode [0, 0, 0] = .reject (.unknownOpcode 0) := by decide

/-- X6: the first bad operand is the one named; D6v: an immediate above 7 is none. -/
theorem test_decode_bad_register :
    decode [0xA0, 9, 0xFF] = .reject (.badRegister 9) ∧ decode [0xA0, 0, 0xFF] = .reject (.badRegister 0xFF) ∧
      decode [0x82, 0, 9] = .ok (.ldi 0 9) [] := by decide

/-- The table's word of LDI R5, 0xFF: bits 7:0 are the opcode, 15:8 the register, 23:16 the immediate. -/
theorem test_decode_table_word :
    decodeTableWord 24 0xFF0582 = some (.ldi 5 0xFF) ∧ decodeTableWord 8 0x01 = some .hlt ∧
      decodeTableWord 8 0xA0 = some (.add 0 0) ∧ decodeTableWord 16 0x0845 = none := by decide

/-! ### WellFormed: every register operand byte is checked (R52, R56), an immediate is not (R53) -/

theorem test_ill_formed_push : ¬ (Instr.push 8).WellFormed := by decide
theorem test_ill_formed_pop : ¬ (Instr.pop 8).WellFormed := by decide
theorem test_ill_formed_prn : ¬ (Instr.prn 255).WellFormed := by decide
theorem test_ill_formed_pra : ¬ (Instr.pra 8).WellFormed := by decide
theorem test_ill_formed_call : ¬ (Instr.call 16).WellFormed := by decide
theorem test_ill_formed_jmp : ¬ (Instr.jmp 8).WellFormed := by decide
theorem test_ill_formed_ldi : ¬ (Instr.ldi 8 0).WellFormed := by decide
theorem test_ill_formed_store : ¬ (Instr.store 8 0).WellFormed ∧ ¬ (Instr.store 0 8).WellFormed := by decide
theorem test_ill_formed_add : ¬ (Instr.add 8 0).WellFormed ∧ ¬ (Instr.add 0 8).WellFormed := by decide
theorem test_ill_formed_mul : ¬ (Instr.mul 8 0).WellFormed ∧ ¬ (Instr.mul 0 8).WellFormed := by decide
theorem test_ill_formed_cmp : ¬ (Instr.cmp 8 0).WellFormed ∧ ¬ (Instr.cmp 0 8).WellFormed := by decide
theorem test_well_formed_ldi : (Instr.ldi 7 255).WellFormed := by decide

/-! ### One cycle of every instruction (95_test_vectors.md section 2) -/

/-- A4: 200 + 100 = 300, and 300 - 256 = 44. -/
theorem test_add_wraps :
    let t := after false (withRegs [(.r2, 200), (.r3, 100)] (code 0 [0xA0, 2, 3]))
    t.reg .r2 = 44 ∧ t.reg .r3 = 100 ∧ t.pc = 3 ∧ t.fl = 0 := by decide

/-- A6: the destination is the first operand. -/
theorem test_add_destination :
    let t := after false (withRegs [(.r0, 7)] (code 0 [0xA0, 1, 0]))
    t.reg .r1 = 7 ∧ t.reg .r0 = 7 := by decide

/-- M3: 255 * 255 = 65025, which is 1 modulo 256. -/
theorem test_mul_wraps : (after false (withRegs [(.r0, 255), (.r1, 255)] (code 0 [0xA2, 0, 1]))).reg .r0 = 1 := by decide

/-- M5: 13 * 20 = 260. -/
theorem test_mul_low_byte : (after false (withRegs [(.r0, 13), (.r1, 20)] (code 0 [0xA2, 0, 1]))).reg .r0 = 4 := by decide

/-- K5: the comparison is unsigned. -/
theorem test_cmp_unsigned : (after false (withRegs [(.r0, 0x80), (.r1, 0x7F)] (code 0 [0xA7, 0, 1]))).fl = 0x01 := by decide

/-- K3: LT is ORed in and nothing is cleared. -/
theorem test_cmp_accumulates :
    (after false { withRegs [(.r0, 3), (.r1, 5)] (code 0 [0xA7, 0, 1]) with fl := 0x03 }).fl = 0x07 := by decide

/-- D3v: SP is an ordinary destination. -/
theorem test_ldi_sp : (after false (code 0 [0x82, 7, 0x80])).regs = ⟨0, 0, 0, 0, 0, 0, 0, 0x80⟩ := by decide

/-- D9v: unsigned. -/
theorem test_prn_255 : (after false (withRegs [(.r2, 255)] (code 0 [0x47, 2]))).out = [.num 255] := by decide

/-- R104, P1: Num(244) is the three characters 2, 4, 4 and a line end. -/
theorem test_render_num : renderTrace [.num 244, .chr 0x41] =
    [.codePoint 50, .codePoint 52, .codePoint 52, .lineEnd, .codePoint 0x41] := by decide

/-- D11v. -/
theorem test_pra : (after false (withRegs [(.r0, 0x41)] (code 0 [0x48, 0]))).out = [.chr 0x41] := by decide

/-- D14v: the first operand holds the address, the second the value. -/
theorem test_store_operands :
    let t := after false (withRegs [(.r0, 0x40), (.r1, 0x99)] (code 0 [0x84, 0, 1]))
    t.readMem 0x40 = 0x99 ∧ t.readMem 0x99 = 0 ∧ t.pc = 3 := by decide

/-- D17v: the next fetch sees the store; it is a HLT. -/
theorem test_store_then_fetch :
    (after false (after false (withRegs [(.r0, 3), (.r1, 1)] (code 0 [0x84, 0, 1])))).runState = .halted := by decide

/-- F9: a JMP at 254 does not advance, so it does not fault. -/
theorem test_jmp_at_254 :
    let t := after false (withRegs [(.r2, 0x10)] (code 0xFE [0x54, 2]))
    t.pc = 0x10 ∧ t.runState = .running := by decide

/-- F3. -/
theorem test_call :
    let t := after false (withRegs [(.r1, 0x20)] (code 6 [0x50, 1]))
    t.readMem 0xF3 = 0x08 ∧ t.reg .sp = 0xF3 ∧ t.pc = 0x20 := by decide

/-- F8: the target is read after the push. -/
theorem test_call_r7 :
    let t := after false (code 0 [0x50, 7])
    t.readMem 0xF3 = 0x02 ∧ t.pc = 0xF3 := by decide

/-- F4: the popped byte stays in memory. -/
theorem test_ret :
    let t := after false (withMem [(0xF3, 0x08)] (withRegs [(.sp, 0xF3)] (code 0x20 [0x11])))
    t.pc = 0x08 ∧ t.reg .sp = 0xF4 ∧ t.readMem 0xF3 = 0x08 := by decide

/-- S4: SP = 0 wraps to 255. -/
theorem test_push_wraps :
    let t := after false (withRegs [(.r0, 0x77), (.sp, 0)] (code 0 [0x45, 0]))
    t.readMem 0xFF = 0x77 ∧ t.reg .sp = 0xFF := by decide

/-- S7: PUSH R7 stores the SP from before the decrement. -/
theorem test_push_r7 : (after false (code 0 [0x45, 7])).readMem 0xF3 = 0xF4 := by decide

/-- S6: SP = 255 wraps to 0. -/
theorem test_pop_wraps :
    let t := after false (withMem [(0xFF, 0x66)] (withRegs [(.sp, 0xFF)] (code 0 [0x46, 0])))
    t.reg .r0 = 0x66 ∧ t.reg .sp = 0 := by decide

/-- S8: the popped value wins over the increment. -/
theorem test_pop_r7 :
    (after false (withMem [(0xF3, 0x80)] (withRegs [(.sp, 0xF3)] (code 0 [0x46, 7])))).reg .sp = 0x80 := by decide

/-- X12: HLT at 255 halts there. -/
theorem test_hlt_at_255 :
    let t := after false (code 0xFF [0x01])
    t.runState = .halted ∧ t.pc = 0xFF ∧ t.faultRecord = none := by decide

/-- I9: the frame of 60_exceptions.md R142's example. -/
def frameState : State :=
  withMem [(0xEC, 0x00), (0xED, 0x01), (0xEE, 0), (0xEF, 0), (0xF0, 0x0F), (0xF1, 0x11), (0xF2, 0xF8), (0xF3, 0x0F)]
    (withRegs [(.sp, 0xEC)] (code 0 [0x13]))

/-- I9. -/
theorem test_iret_idle :
    let t := after false frameState
    t.regs = ⟨0xF8, 0x11, 0x0F, 0, 0, 0x01, 0x00, 0xF4⟩ ∧ t.pc = 0x0F ∧ t.irqState = .idle := by decide

/-- P5, cycle 12: IRET from the handler makes the controller IDLE. -/
theorem test_iret_servicing : (after false { frameState with irqState := .servicing }).irqState = .idle := by decide

/-! ### Faults (95_test_vectors.md 2.8) -/

/-- X2 and P6's record. -/
theorem test_unknown_opcode :
    let t := after false (code 0 [0xFF])
    t.runState = .faulted ∧
      t.faultRecord = some ⟨.unknownOpcode 0 0xFF, 0, 0xFF, some 0, some 0, ⟨0, 0, 0, 0, 0, 0, 0, 0xF4⟩⟩ := by decide

/-- X4: nothing is printed. -/
theorem test_bad_register_prn :
    let t := after false (code 0 [0x47, 8])
    t.faultRecord.map (·.fault) = some (.badRegisterIndex 0 8) ∧ t.out = [] ∧ t.pc = 0 := by decide

/-- X8: the load is done, then the advance faults. -/
theorem test_ldi_at_253 :
    let t := after false (code 0xFD [0x82, 0, 0x55])
    t.faultRecord.map (·.fault) = some (.pcOutOfBounds 256) ∧ t.reg .r0 = 0x55 ∧ t.pc = 0xFD := by decide

/-- X9 and X10: an operand byte past address 255. -/
theorem test_operand_past_the_end :
    (after false (code 0xFE [0x82, 0])).faultRecord.map (·.fault) = some (.pcOutOfBounds 256) ∧
      (after false (code 0xFF [0x82])).faultRecord.map (·.fault) = some (.pcOutOfBounds 256) := by decide

/-- X11: byte 1 is checked before byte 2 is fetched. -/
theorem test_register_before_second_fetch :
    (after false (code 0xFE [0x82, 9])).faultRecord.map (·.fault) = some (.badRegisterIndex 0xFE 9) := by decide

/-- X14: nothing is pushed. -/
theorem test_call_at_254 :
    let t := after false (withRegs [(.r1, 0x20)] (code 0xFE [0x50, 1]))
    t.faultRecord.map (·.fault) = some (.pcOutOfBounds 256) ∧ t.reg .sp = 0xF4 ∧ t.readMem 0xF3 = 0 := by decide

/-- X16: the push stays. -/
theorem test_push_at_254 :
    let t := after false (withRegs [(.r0, 0x2A)] (code 0xFE [0x45, 0]))
    t.runState = .faulted ∧ t.readMem 0xF3 = 0x2A ∧ t.reg .sp = 0xF3 := by decide

/-! ### Interrupts (95_test_vectors.md 2.7) -/

/-- I1: pending and not enabled. -/
theorem test_tick_masked :
    let t := after true (code 0 [0x01])
    t.reg .is = 0x01 ∧ t.runState = .halted ∧ t.reg .sp = 0xF4 := by decide

/-- I3: tick, entry and the handler's first instruction in one cycle. -/
theorem test_tick_enters :
    let t := after true (withRegs [(.im, 1)] (code 0 [0x01]))
    t.reg .is = 0 ∧ t.reg .sp = 0xEC ∧ t.readMem 0xED = 0x01 ∧ t.readMem 0xEC = 0 ∧ t.irqState = .servicing ∧
      t.runState = .halted := by decide

/-- I4: no entry while SERVICING; the bit is set all the same. -/
theorem test_no_nesting :
    let t := after true { withRegs [(.im, 1), (.is, 1)] (code 0 [0x01]) with irqState := .servicing }
    t.reg .is = 0x01 ∧ t.reg .sp = 0xF4 := by decide

/-- I6: the lowest bit set in both masks is taken. -/
theorem test_lowest_first :
    let t := after false (withMem [(0xF9, 0x20), (0xFA, 0x30), (0x20, 1)]
      (withRegs [(.im, 0xFF), (.is, 0x06), (.r0, 0xAA)] (code 0 [0x01])))
    t.pc = 0x20 ∧ t.reg .is = 0x04 ∧ t.readMem 0xF2 = 0xAA ∧ t.readMem 0xEC = 0x04 := by decide

/-- I8: the frame wraps, and the vector is read after the pushes. -/
theorem test_frame_wraps :
    let t := after false (withMem [(0xF8, 0x50), (0x50, 1)] (withRegs [(.im, 1), (.is, 1), (.sp, 4)] (code 0 [0x01])))
    t.reg .sp = 0xFC ∧ t.readMem 0xFD = 0x01 ∧ t.pc = 0x50 ∧ t.runState = .halted := by decide

/-- X22: an entry and then an unknown opcode in one cycle; the entry is kept. -/
theorem test_entry_then_fault :
    let t := after false (withMem [(0xFA, 0x30)] (withRegs [(.im, 0xFF), (.is, 0x04)] (atPc 0)))
    t.faultRecord.map (·.fault) = some (.unknownOpcode 0x30 0) ∧ t.reg .sp = 0xEC ∧ t.irqState = .servicing := by decide

/-! ### The interface -/

/-- The word is stored at `pc` and is what the next cycle runs. -/
theorem test_with_fetch_word :
    (after false (State.reset.withFetchWord 24 0xFF0582)).reg .r5 = 0xFF ∧
      (after false (State.reset.withFetchWord 8 0x01)).runState = .halted := by decide

/-- R160: `reset` puts a used machine back. -/
theorem test_apply_reset : applyReset { code 5 [0x13] with fl := 7, runState := .halted } = State.reset := by decide

/-- P1's image, loaded at address 0 (R26). -/
theorem test_load_image :
    (loadImage [0x82, 0, 8, 0x47, 0, 1] State.reset).map (fun s => (s.readMem 0, s.readMem 3, s.readMem 6)) =
      some (0x82, 0x47, 0) := by decide

/-- R163: no fault record is handed out by a halted machine. -/
theorem test_host_view : hostView (after false (code 0 [0x01])) = (.halted, [], none) := by decide

/-! ### Witnesses: concrete values that meet all the hypotheses of a statement, clause by clause at the ends of their ranges -/

theorem witness_DecodeOfEncodeIsTheInstruction : (Instr.ldi 7 255).WellFormed ∧ (Instr.cmp 0 7).WellFormed := by decide

theorem witness_DecodedBytesAreTheEncoding : decode [0x82, 7, 255, 1] = .ok (.ldi 7 255) [1] := by decide

theorem witness_OtherOpcodeBytesAreUnknown : (0x83 : Byte) ∉
    ([0x01, 0x11, 0x13, 0x45, 0x46, 0x47, 0x48, 0x50, 0x54, 0x82, 0x84, 0xA0, 0xA2, 0xA7] : List Byte) := by decide

theorem witness_LengthIsFixedByTheOpcode :
    decode (0x01 :: []) = .ok .hlt [] ∧ decode (0xA0 :: [7, 0, 1]) = .ok (.add 7 0) [1] := by decide

theorem witness_RegisterBytesAboveSevenAreRejected :
    (0x45 : Byte) ∈ ([0x45, 0x46, 0x47, 0x48, 0x50, 0x54, 0x82, 0x84, 0xA0, 0xA2, 0xA7] : List Byte) ∧
      (0xA7 : Byte) ∈ ([0x84, 0xA0, 0xA2, 0xA7] : List Byte) ∧ 8 ≤ (8 : Byte).toNat ∧ 8 ≤ (255 : Byte).toNat := by decide

/-- The addresses and operand bytes at which the clauses of a format R instruction meet. -/
theorem witness_format_r_clauses :
    (atPc 253).pc.toNat ≤ 253 ∧ (atPc 254).pc.toNat = 254 ∧ (atPc 254).pc.toNat ≤ 254 ∧ (atPc 255).pc.toNat = 255 ∧
      8 ≤ (8 : Byte).toNat := by decide

/-- The addresses and operand bytes at which the clauses of a format RR or RI instruction meet. -/
theorem witness_format_rr_clauses :
    (atPc 252).pc.toNat ≤ 252 ∧ (atPc 253).pc.toNat = 253 ∧ (atPc 253).pc.toNat ≤ 253 ∧ (atPc 254).pc.toNat = 254 ∧
      (atPc 254).pc.toNat ≤ 254 ∧ (atPc 255).pc.toNat = 255 ∧ 8 ≤ (8 : Byte).toNat ∧ (7 : Byte).toNat ≤ 7 := by decide

theorem witness_PushStoresRegisterBelowSp :
    (atPc 253).pc.toNat ≤ 253 ∧ (atPc 254).pc.toNat = 254 ∧ (atPc 255).pc.toNat = 255 := by decide

theorem witness_PopLoadsRegisterFromSp :
    (atPc 253).pc.toNat ≤ 253 ∧ (atPc 254).pc.toNat = 254 ∧ (atPc 255).pc.toNat = 255 := by decide

theorem witness_PrnEmitsNumber :
    (atPc 253).pc.toNat ≤ 253 ∧ (atPc 254).pc.toNat = 254 ∧ (atPc 255).pc.toNat = 255 := by decide

theorem witness_PraEmitsCharacter :
    (atPc 253).pc.toNat ≤ 253 ∧ (atPc 254).pc.toNat = 254 ∧ (atPc 255).pc.toNat = 255 := by decide

theorem witness_CallPushesReturnAddress :
    (atPc 253).pc.toNat ≤ 253 ∧ (atPc 254).pc.toNat = 254 ∧ (atPc 255).pc.toNat = 255 := by decide

theorem witness_JmpGoesToRegister : (atPc 254).pc.toNat ≤ 254 ∧ (atPc 255).pc.toNat = 255 := by decide

theorem witness_LdiLoadsImmediate :
    (atPc 252).pc.toNat ≤ 252 ∧ (atPc 253).pc.toNat = 253 ∧ (atPc 254).pc.toNat = 254 ∧ (7 : Byte).toNat ≤ 7 := by decide

theorem witness_StoreWritesAddressedByte :
    (atPc 252).pc.toNat ≤ 252 ∧ (atPc 253).pc.toNat = 253 ∧ (7 : Byte).toNat ≤ 7 ∧ 8 ≤ (8 : Byte).toNat := by decide

theorem witness_AddIsModulo256 :
    (atPc 252).pc.toNat ≤ 252 ∧ (atPc 253).pc.toNat = 253 ∧ (7 : Byte).toNat ≤ 7 ∧ 8 ≤ (8 : Byte).toNat := by decide

theorem witness_MulIsModulo256 :
    (atPc 252).pc.toNat ≤ 252 ∧ (atPc 253).pc.toNat = 253 ∧ (7 : Byte).toNat ≤ 7 ∧ 8 ≤ (8 : Byte).toNat := by decide

/-- R1 holds 1 and R0, R2 hold 0: each order of the comparison has its registers. -/
theorem witness_CmpAccumulatesOneFlag :
    let s := withRegs [(.r1, 1)] (atPc 252)
    (s.reg .r0).toNat < (s.reg .r1).toNat ∧ (s.reg .r0).toNat = (s.reg .r2).toNat ∧ s.pc.toNat ≤ 252 ∧
      (atPc 253).pc.toNat = 253 := by decide

theorem witness_ReadAfterWrite : (255 : Byte) ≠ 0 := by decide

/-- STORE R0, R1 at 253 writes the byte the machine fetches next at address 0x40. -/
theorem witness_StoreIsSeenByTheNextFetch :
    let s := withRegs [(.r0, 0x40), (.r1, 1)] (atPc 253)
    let t := raise (.pcOutOfBounds 256) (s.writeMem 0x40 1)
    exec (.store (Reg.toByte .r0) (Reg.toByte .r1)) s = .next t ∧ s.pc.toNat ≤ 253 ∧
      ({ t with pc := 0x40 } : State).mem = t.mem ∧ ({ t with pc := 0x40 } : State).pc = s.reg .r0 :=
  ⟨rfl, by decide, rfl, rfl⟩

theorem witness_AdvanceNeverWraps : (atPc 252).pc.toNat + 3 ≤ 255 ∧ 255 < (atPc 253).pc.toNat + 3 := by decide

theorem witness_StackPushWritesBelowSp : (0 : Byte) ≠ (withRegs [(.sp, 0)] (atPc 0)).reg .r7 - 1 ∧ Reg.r0 ≠ Reg.r7 := by
  decide

/-- Two pushes, and the state they leave as the state popped from. -/
theorem witness_StackIsLastInFirstOut :
    let u := pushMany [1, 2] (atPc 0)
    ([1, 2] : List Byte).length ≤ 256 ∧ u.reg .r7 = (pushMany [1, 2] (atPc 0)).reg .r7 ∧
      (∀ k < ([1, 2] : List Byte).length, u.readMem ((pushMany [1, 2] (atPc 0)).reg .r7 + BitVec.ofNat 8 k) =
        (pushMany [1, 2] (atPc 0)).readMem ((pushMany [1, 2] (atPc 0)).reg .r7 + BitVec.ofNat 8 k)) :=
  ⟨by decide, rfl, fun _ _ => rfl⟩

theorem witness_CallThenRetReturns : (atPc 253).pc.toNat ≤ 253 := by decide

theorem witness_LdiThenPrnEmitsTheValue : (atPc 250).pc.toNat ≤ 250 := by decide

theorem witness_TextRenderingOfEvents : (9 ∈ decimalDigits 249) ∧ (decimalDigits 0).head? = some 0 := by decide

theorem witness_NonStoringInstructionsKeepMemory :
    (Instr.pop 7).op ≠ .store ∧ (Instr.pop 7).op ≠ .push ∧ (Instr.pop 7).op ≠ .call ∧
      ∃ t, exec (.pop 7) (atPc 253) = .next t := ⟨by decide, by decide, by decide, _, rfl⟩

/-- Each of the three stores, an address it does not store to, and a STORE whose first operand byte names no register. -/
theorem witness_StoringInstructionsWriteOneByte :
    (∃ t, exec (.store 0 1) (atPc 0) = .next t) ∧ (∀ r, Reg.ofByte? 0 = some r → (1 : Byte) ≠ (atPc 0).reg r) ∧
      (∃ t, exec (.store 8 1) (atPc 0) = .next t) ∧ (∀ r, Reg.ofByte? 8 = some r → (1 : Byte) ≠ (atPc 0).reg r) ∧
      (∃ t, exec (.push 7) (atPc 253) = .next t) ∧ (∃ t, exec (.call 7) (atPc 253) = .next t) ∧
      (0 : Byte) ≠ pushAddr (atPc 253) :=
  ⟨⟨_, rfl⟩, fun r h => (by cases h; decide), ⟨_, rfl⟩, fun r h => (by cases h), ⟨_, rfl⟩, ⟨_, rfl⟩, by decide⟩

theorem witness_RegistersOutsideTheWriteColumnKept :
    (∃ t, exec (.pop 5) (atPc 0) = .next t) ∧ Reg.r6 ∉ writtenRegs (.pop 5) := ⟨⟨_, rfl⟩, by decide⟩

theorem witness_OnlyCmpWritesFlags :
    (Instr.add 0 1).op ≠ .cmp ∧ ∃ t, exec (.add 0 1) (atPc 0) = .next t := ⟨by decide, _, rfl⟩

theorem witness_ControlStateFrame :
    (∃ t, exec (.push 0) (atPc 254) = .next t) ∧ (Instr.push 0).op ≠ .iret ∧ (Instr.push 0).op ≠ .prn ∧
      (Instr.push 0).op ≠ .pra := ⟨⟨_, rfl⟩, by decide, by decide, by decide⟩

/-- HLT at 0, the coming `tick` given; and a state whose `tick` is a free draw. -/
theorem witness_StepRunsTheDecodedInstruction :
    let s := { code 0 [0x01] with tickInputs := [true] }
    s.runState = .running ∧ decode (fetchWindow (interruptCheck (timerCheck (tickInput s) (sampleTick s)))) = .ok .hlt [0, 0] ∧
      s.tickInputs = true :: [] ∧ (atPc 0).runState = .running ∧ (atPc 0).tickInputs = [] := by decide

/-- An enabled pending interrupt while SERVICING; and no enabled pending interrupt while IDLE. -/
theorem witness_QuietCycleIsOneInstruction :
    let s := { withRegs [(.im, 1), (.is, 1)] (code 255 [0x01]) with irqState := .servicing }
    s.runState = .running ∧ s.irqState = .servicing ∧ decode (fetchWindow s) = .ok .hlt [] ∧
      (code 0 [0x01]).reg .r5 &&& (code 0 [0x01]).reg .r6 = 0 ∧ decode (fetchWindow (code 0 [0x01])) = .ok .hlt [0, 0] := by
  decide

/-- LDI R9 at 254: its register byte is in memory, its immediate is past the end. -/
theorem witness_CycleFaultsAsTheInstructionDoes :
    (code 254 [0x82, 9]).runState = .running ∧
      ∀ k b, (encode (.ldi 9 5))[k]? = some b → (beforeFetch false (code 254 [0x82, 9])).pc.toNat + k ≤ 255 →
        (beforeFetch false (code 254 [0x82, 9])).readMem
          (BitVec.ofNat 8 ((beforeFetch false (code 254 [0x82, 9])).pc.toNat + k)) = b := by
  refine ⟨rfl, fun k b h hk => ?_⟩
  have hp : (beforeFetch false (code 254 [0x82, 9])).pc.toNat = 254 := by decide
  have hk' : k = 0 ∨ k = 1 := by omega
  rcases hk' with rfl | rfl <;> (cases h; decide)

theorem witness_UnknownOpcodeFaultsTheCycle :
    (atPc 255).runState = .running ∧
      Op.ofByte? ((beforeFetch true (atPc 255)).readMem (beforeFetch true (atPc 255)).pc) = none := by decide

theorem witness_TerminalStatesAreInert :
    ({ atPc 0 with runState := .halted } : State).runState ≠ .running ∧
      ({ atPc 0 with runState := .faulted } : State).runState ≠ .running := by decide

theorem witness_TimerCheckSetsBitZeroOfIs : (atPc 0).runState = .running := by decide

/-- Interrupt 0 and interrupt 7 as the lowest of the enabled pending ones; none enabled; SERVICING. -/
theorem witness_ArbiterTakesTheLowestEnabledPending :
    let s := withRegs [(.im, 0x81), (.is, 0x81)] (atPc 0)
    let t := withRegs [(.im, 0x80), (.is, 0xFF)] (atPc 0)
    s.irqState = .idle ∧ (s.reg .r5 &&& s.reg .r6).getLsbD 0 = true ∧
      t.irqState = .idle ∧ (t.reg .r5 &&& t.reg .r6).getLsbD 7 = true ∧
      (∀ j : Fin 8, j < 7 → (t.reg .r5 &&& t.reg .r6).getLsbD j.val = false) ∧
      (atPc 0).reg .r5 &&& (atPc 0).reg .r6 = 0 ∧ ({ s with irqState := .servicing } : State).irqState = .servicing := by
  decide

/-- Address 4 with SP = 4 lies above the frame 0xFC to 3. -/
theorem witness_InterruptEntrySavesTheContext :
    ∀ k : Nat, 1 ≤ k → k ≤ 8 → (4 : Byte) ≠ (withRegs [(.sp, 4)] (atPc 0)).reg .r7 - BitVec.ofNat 8 k := by
  intro k h1 h2
  interval_cases k <;> decide

theorem witness_EntryThenIretRestoresTheContext :
    let s := withRegs [(.im, 0x80), (.is, 0x80), (.sp, 4)] (atPc 0)
    let u := { interruptEntry 7 s with fl := 7, pc := 0x50 }
    u.reg .r7 = (interruptEntry 7 s).reg .r7 ∧
      (∀ k : Fin 8, u.readMem (u.reg .r7 + BitVec.ofNat 8 k.val) =
        (interruptEntry 7 s).readMem (u.reg .r7 + BitVec.ofNat 8 k.val)) := ⟨rfl, fun _ => rfl⟩

theorem witness_TickInTheIretCycleIsLost :
    let s := { frameState with irqState := .servicing }
    s.runState = .running ∧ s.irqState = .servicing ∧ s.readMem s.pc = 0x13 := by decide

/-- A cycle that leaves SERVICING and a cycle that enters it. -/
theorem witness_OnlyEntryAndIretMoveTheController :
    (∃ t, cycle true { frameState with irqState := .servicing } = .next t ∧ t.irqState = .idle) ∧
    (∃ t, cycle true (withRegs [(.im, 1)] (code 0 [0x01])) = .next t ∧ t.irqState = .servicing) ∧
    (withRegs [(.im, 1)] (code 0 [0x01])).irqState = .idle :=
  ⟨⟨_, rfl, by decide⟩, ⟨_, rfl, by decide⟩, by decide⟩

theorem witness_FlagsInfluenceNothingElse :
    ∃ t, cycle true (withRegs [(.im, 1)] (code 0 [0x01])) = .next t := ⟨_, rfl⟩

/-- Two states that differ in bit 0 of IS, with IM = 0 and an instruction that reads R0 only. -/
theorem witness_TicksTouchOnlyBitZeroOfIs :
    let s := code 0 [0x47, 0]
    let s' := s.setReg .r6 1
    AgreeUpToTimerBit s s' ∧ s.reg .r5 = 0 ∧ decode (fetchWindow s) = .ok (.prn 0) [0] ∧
      ∀ i rest, decode (fetchWindow s) = .ok i rest → Reg.r6 ∉ readRegs i := by
  refine ⟨⟨by decide, rfl, rfl, rfl, rfl, rfl, rfl, rfl⟩, by decide, by decide, fun i rest h => ?_⟩
  have e : decode (fetchWindow (code 0 [0x47, 0])) = .ok (.prn 0) [0] := by decide
  rw [e] at h
  cases h
  decide

/-- A machine about to run CMP of two equal registers with GT set before. -/
def beforeCmp : State := { code 0 [0xA7, 4, 4] with fl := 0x01, tickInputs := [true] }

theorem witness_StepKeepsMemoryCanonical : MemoryCanonical beforeCmp ∧ ∃ t, step beforeCmp = .next t :=
  ⟨by unfold MemoryCanonical; decide, _, rfl⟩

theorem witness_StepKeepsReservedFlagBitsClear : FlagsReservedClear beforeCmp ∧ ∃ t, step beforeCmp = .next t :=
  ⟨by unfold FlagsReservedClear; decide, _, rfl⟩

theorem witness_StepKeepsRecordMatchingRunState : RecordMatchesRunState beforeCmp ∧ ∃ t, step beforeCmp = .next t :=
  ⟨by unfold RecordMatchesRunState; decide, _, rfl⟩

theorem witness_StepNeverClearsAFlag : ∃ t, step beforeCmp = .next t ∧ t.fl = 0x03 := ⟨_, rfl, by decide⟩

theorem witness_StepOnlyAppendsToTheTrace :
    ∃ t, step { withRegs [(.r0, 8)] (code 0 [0x47, 0]) with tickInputs := [false] } = .next t ∧ t.out = [.num 8] :=
  ⟨_, rfl, by decide⟩

theorem witness_ResetRegisterValues : Reg.r6 ≠ Reg.r7 := by decide

/-- The longest image there is. -/
theorem witness_LoaderPlacesTheImage : (List.replicate 256 (0x01 : Byte)).length ≤ 256 := le_of_eq List.length_replicate

end Sys2Proof.Tests
end

section
/-! PROOF. What a cycle and a step can do, said once: `cycle_cases` and `step_cases`; and the state the fetch of a step sees,
`State.atFetch`, field by field. -/

namespace Sys2Proof.Machine

/-! ### Sampling the tick and checking for interrupts, field by field -/

@[simp] theorem sampleTick_fl (s : State) : (sampleTick s).fl = s.fl := by rw [sampleTick_frame]
@[simp] theorem sampleTick_mem (s : State) : (sampleTick s).mem = s.mem := by rw [sampleTick_frame]
@[simp] theorem sampleTick_runState (s : State) : (sampleTick s).runState = s.runState := by rw [sampleTick_frame]
@[simp] theorem sampleTick_faultRecord (s : State) : (sampleTick s).faultRecord = s.faultRecord := by
  rw [sampleTick_frame]
@[simp] theorem sampleTick_out (s : State) : (sampleTick s).out = s.out := by rw [sampleTick_frame]

@[simp] theorem interruptCheck_fl (s : State) : (interruptCheck s).fl = s.fl := by
  rcases interruptCheck_cases s with h | ⟨i, -, -, h⟩ <;> simp [h]
@[simp] theorem interruptCheck_runState (s : State) : (interruptCheck s).runState = s.runState := by
  rcases interruptCheck_cases s with h | ⟨i, -, -, h⟩ <;> simp [h]
@[simp] theorem interruptCheck_faultRecord (s : State) : (interruptCheck s).faultRecord = s.faultRecord := by
  rcases interruptCheck_cases s with h | ⟨i, -, -, h⟩ <;> simp [h]
@[simp] theorem interruptCheck_out (s : State) : (interruptCheck s).out = s.out := by
  rcases interruptCheck_cases s with h | ⟨i, -, -, h⟩ <;> simp [h]

theorem interruptCheck_memoryCanonical {s : State} (hs : MemoryCanonical s) : MemoryCanonical (interruptCheck s) := by
  rcases interruptCheck_cases s with h | ⟨i, -, -, h⟩ <;> rw [h]
  · exact hs
  · exact interruptEntry_memoryCanonical hs i

/-- The state the fetch of a step sees, when the step's cycle gets that far (40_execution_loop.md R70). -/
def State.atFetch (s : State) : State := beforeFetch (tickInput s) (sampleTick s)

@[simp] theorem atFetch_fl (s : State) : s.atFetch.fl = s.fl := by simp [State.atFetch, beforeFetch]
@[simp] theorem atFetch_runState (s : State) : s.atFetch.runState = s.runState := by simp [State.atFetch, beforeFetch]
@[simp] theorem atFetch_faultRecord (s : State) : s.atFetch.faultRecord = s.faultRecord := by simp [State.atFetch, beforeFetch]
@[simp] theorem atFetch_out (s : State) : s.atFetch.out = s.out := by simp [State.atFetch, beforeFetch]

theorem atFetch_memoryCanonical {s : State} (hs : MemoryCanonical s) : MemoryCanonical s.atFetch := by
  apply interruptCheck_memoryCanonical
  simpa [MemoryCanonical] using hs

/-! ### The fetch, the cycle, the step -/

/-- All that steps 3 to 6 of a cycle can do: execute an instruction, or raise a fault on the unchanged state. -/
theorem fetchExecute_cases {s t : State} (h : fetchExecute s = .next t) :
    (∃ i, exec i s = .next t) ∨ ∃ f, t = raise f s := by
  unfold fetchExecute at h
  split at h
  · exact .inl ⟨_, h⟩
  · exact .inr ⟨_, (Host.Outcome.next.inj h).symm⟩

/-- All that a cycle can do: nothing in a terminal state, else what the fetch and the execution do. -/
theorem cycle_cases {tick : Bool} {s t : State} (h : cycle tick s = .next t) :
    (s.runState ≠ .running ∧ t = s) ∨
      (s.runState = .running ∧
        ((∃ i, exec i (beforeFetch tick s) = .next t) ∨ ∃ f, t = raise f (beforeFetch tick s))) := by
  by_cases hr : s.runState = .running
  · rw [cycle_running hr] at h
    exact .inr ⟨hr, fetchExecute_cases h⟩
  · rw [cycle_terminal hr] at h
    exact .inl ⟨hr, (Host.Outcome.next.inj h).symm⟩

/-- All that a step can do. -/
theorem step_cases {s t : State} (h : step s = .next t) :
    (s.runState ≠ .running ∧ t = s) ∨
      (s.runState = .running ∧ ((∃ i, exec i s.atFetch = .next t) ∨ ∃ f, t = raise f s.atFetch)) := by
  rcases cycle_cases h with ⟨hr, rfl⟩ | ⟨hr, h⟩ <;> rw [sampleTick_runState] at hr
  · exact .inl ⟨hr, sampleTick_terminal hr⟩
  · exact .inr ⟨hr, h⟩

end Sys2Proof.Machine
end

section
/-! PROOF. What the execution of an instruction writes, one lemma per part of the state, from `exec_cases`. -/

namespace Sys2Proof.Machine

/-! ### The effect before the `pc` update -/

section Effect

variable {i : Instr} {s u : State}

/-- STORE, PUSH and CALL alone write memory. -/
theorem Effect.mem_eq (h : Effect i s u) (hstore : i.op ≠ .store) (hpush : i.op ≠ .push) (hcall : i.op ≠ .call) :
    u.mem = s.mem := by
  cases h
  case store => exact absurd rfl hstore
  case push => exact absurd rfl hpush
  case call => exact absurd rfl hcall
  all_goals rfl

/-- CMP alone writes FL. -/
theorem Effect.fl_eq (h : Effect i s u) (hcmp : i.op ≠ .cmp) : u.fl = s.fl := by
  cases h
  case cmp => exact absurd rfl hcmp
  all_goals rfl

/-- The bit a comparison sets is none of the reserved bits 3 to 7 (10_state.md R14). -/
theorem compareFlag_reserved (a b : Byte) : compareFlag a b &&& 0xF8 = 0 := by
  unfold compareFlag
  split_ifs <;> decide

/-- FL only gains bits, and none of the reserved ones. -/
theorem Effect.fl_gains (h : Effect i s u) : ∃ bit : Byte, bit &&& 0xF8 = 0 ∧ u.fl = s.fl ||| bit := by
  cases h
  case cmp => exact ⟨_, compareFlag_reserved _ _, rfl⟩
  all_goals exact ⟨0, by decide, BitVec.or_zero.symm⟩

/-- PRN and PRA alone emit. -/
theorem Effect.out_eq (h : Effect i s u) (hprn : i.op ≠ .prn) (hpra : i.op ≠ .pra) : u.out = s.out := by
  cases h
  case prn => exact absurd rfl hprn
  case pra => exact absurd rfl hpra
  all_goals rfl

theorem Effect.out_appends (h : Effect i s u) : ∃ es, u.out = s.out ++ es ∧ es.length ≤ 1 := by
  cases h
  case prn => exact ⟨[_], rfl, le_rfl⟩
  case pra => exact ⟨[_], rfl, le_rfl⟩
  all_goals exact ⟨[], (List.append_nil _).symm, Nat.zero_le 1⟩

@[simp] theorem operandRegs_toByte (r : Reg) : operandRegs r.toByte = [r] := by simp [operandRegs]

/-- An effect writes no register outside the "writes" column of its row (10_state.md R12). -/
theorem Effect.reg_eq (h : Effect i s u) {q : Reg} (hq : q ∉ writtenRegs i) : u.reg q = s.reg q := by
  cases h
  case prn | pra | jmp | store | cmp => rfl
  case ldi | add | mul => exact State.reg_setReg_of_ne (by simpa [writtenRegs] using hq) ..
  case ret => exact stackDrop_reg (by simpa [writtenRegs] using hq) _
  case push | call => exact stackPush_reg (by simpa [writtenRegs] using hq) ..
  case pop r =>
    obtain ⟨hsp, hr⟩ : q ≠ .sp ∧ q ≠ r := by simpa [writtenRegs] using hq
    rw [popInto_reg_of_ne hr, stackDrop_reg hsp]

end Effect

/-! ### The whole execution -/

section Exec

variable {i : Instr} {s t : State}

/-- Memory, FL and trace after an instruction are those before it or those its effect leaves: no fault, no HLT, no IRET and no
`pc` update writes them. -/
theorem exec_written (h : exec i s = .next t) :
    (t.mem = s.mem ∧ t.fl = s.fl ∧ t.out = s.out) ∨
      ∃ u, Effect i s u ∧ t.mem = u.mem ∧ t.fl = u.fl ∧ t.out = u.out := by
  rcases exec_cases h with ⟨f, rfl⟩ | ⟨-, rfl⟩ | ⟨-, rfl⟩ | ⟨u, hu, hm⟩
  · exact .inl ⟨rfl, rfl, rfl⟩
  · exact .inl ⟨rfl, rfl, rfl⟩
  · exact .inl ⟨interruptReturn_mem s, interruptReturn_fl s, interruptReturn_out s⟩
  · obtain ⟨-, hmem, hfl, hout, -, -, -⟩ := hm.keeps
    exact .inr ⟨u, hu, hmem, hfl, hout⟩

theorem exec_mem_eq (h : exec i s = .next t) (hstore : i.op ≠ .store) (hpush : i.op ≠ .push) (hcall : i.op ≠ .call) :
    t.mem = s.mem := by
  rcases exec_written h with ⟨hmem, -, -⟩ | ⟨u, hu, hmem, -, -⟩
  · exact hmem
  · exact hmem.trans (hu.mem_eq hstore hpush hcall)

theorem exec_memoryCanonical (h : exec i s = .next t) (hs : MemoryCanonical s) : MemoryCanonical t := by
  unfold MemoryCanonical
  rcases exec_written h with ⟨hmem, -, -⟩ | ⟨u, hu, hmem, -, -⟩ <;> rw [hmem]
  · exact hs
  · exact hu.memoryCanonical hs

theorem exec_fl_eq (h : exec i s = .next t) (hcmp : i.op ≠ .cmp) : t.fl = s.fl := by
  rcases exec_written h with ⟨-, hfl, -⟩ | ⟨u, hu, -, hfl, -⟩
  · exact hfl
  · exact hfl.trans (hu.fl_eq hcmp)

theorem exec_fl_gains (h : exec i s = .next t) : ∃ bit : Byte, bit &&& 0xF8 = 0 ∧ t.fl = s.fl ||| bit := by
  rcases exec_written h with ⟨-, hfl, -⟩ | ⟨u, hu, -, hfl, -⟩ <;> rw [hfl]
  · exact ⟨0, by decide, BitVec.or_zero.symm⟩
  · exact hu.fl_gains

theorem exec_out_eq (h : exec i s = .next t) (hprn : i.op ≠ .prn) (hpra : i.op ≠ .pra) : t.out = s.out := by
  rcases exec_written h with ⟨-, -, hout⟩ | ⟨u, hu, -, -, hout⟩
  · exact hout
  · exact hout.trans (hu.out_eq hprn hpra)

theorem exec_out_appends (h : exec i s = .next t) : ∃ es, t.out = s.out ++ es ∧ es.length ≤ 1 := by
  rcases exec_written h with ⟨-, -, hout⟩ | ⟨u, hu, -, -, hout⟩ <;> rw [hout]
  · exact ⟨[], (List.append_nil _).symm, Nat.zero_le 1⟩
  · exact hu.out_appends

theorem mem_writtenRegs_iret (q : Reg) : q ∈ writtenRegs .iret := by cases q <;> decide

theorem exec_reg_eq (h : exec i s = .next t) {q : Reg} (hq : q ∉ writtenRegs i) : t.reg q = s.reg q := by
  rcases exec_cases h with ⟨f, rfl⟩ | ⟨-, rfl⟩ | ⟨rfl, -⟩ | ⟨u, hu, hm⟩
  · rfl
  · rfl
  · exact absurd (mem_writtenRegs_iret q) hq
  · obtain ⟨hregs, -, -, -, -, -, -⟩ := hm.keeps
    rw [← hu.reg_eq hq, State.reg_def, hregs, State.reg_def]

/-- IRET alone moves the controller. -/
theorem exec_irqState_eq (h : exec i s = .next t) (hiret : i.op ≠ .iret) : t.irqState = s.irqState := by
  rcases exec_cases h with ⟨f, rfl⟩ | ⟨-, rfl⟩ | ⟨rfl, -⟩ | ⟨u, hu, hm⟩
  · rfl
  · rfl
  · exact absurd rfl hiret
  · obtain ⟨-, -, -, -, hmoved, -, -⟩ := hm.keeps
    obtain ⟨-, heffect, -, -, -, -⟩ := hu.keeps
    exact hmoved.trans heffect

theorem exec_tick_eq (h : exec i s = .next t) : t.tickInputs = s.tickInputs ∧ t.tickDraws = s.tickDraws := by
  rcases exec_cases h with ⟨f, rfl⟩ | ⟨-, rfl⟩ | ⟨-, rfl⟩ | ⟨u, hu, hm⟩
  · exact ⟨rfl, rfl⟩
  · exact ⟨rfl, rfl⟩
  · exact ⟨interruptReturn_tickInputs s, interruptReturn_tickDraws s⟩
  · obtain ⟨-, -, -, -, -, hinputs, hdraws⟩ := hm.keeps
    obtain ⟨-, -, -, -, hinputs', hdraws'⟩ := hu.keeps
    exact ⟨hinputs.trans hinputs', hdraws.trans hdraws'⟩

/-- The run state and the fault record stay, but for HLT and for a raised fault (10_state.md R20, R23). -/
theorem exec_runState_cases (h : exec i s = .next t) :
    (t.runState = s.runState ∧ t.faultRecord = s.faultRecord) ∨
      (i = .hlt ∧ t.runState = .halted ∧ t.faultRecord = s.faultRecord) ∨
      (t.runState = .faulted ∧ t.pc = s.pc ∧ ∃ f, t.faultRecord = some (faultRecordOf f t)) := by
  rcases exec_cases h with ⟨f, rfl⟩ | ⟨hi, rfl⟩ | ⟨-, rfl⟩ | ⟨u, hu, hm⟩
  · exact .inr (.inr ⟨rfl, rfl, f, rfl⟩)
  · exact .inr (.inl ⟨hi, rfl, rfl⟩)
  · exact .inl ⟨interruptReturn_runState s, interruptReturn_faultRecord s⟩
  · obtain ⟨hpc, -, hrun, hrec, -, -⟩ := hu.keeps
    cases hm with
    | pc p => exact .inl ⟨hrun, hrec⟩
    | fault f => exact .inr (.inr ⟨rfl, hpc, f, rfl⟩)

end Exec

end Sys2Proof.Machine
end

section
/-! PROOF. The invariants of a step, each from `step_cases` and the fact about `exec` it needs. -/

namespace Sys2Proof.Machine

variable {s t : State}

theorem step_memoryCanonical (h : step s = .next t) (hs : MemoryCanonical s) : MemoryCanonical t := by
  rcases step_cases h with ⟨-, rfl⟩ | ⟨-, ⟨i, hi⟩ | ⟨f, rfl⟩⟩
  · exact hs
  · exact exec_memoryCanonical hi (atFetch_memoryCanonical hs)
  · exact atFetch_memoryCanonical hs

/-- A step only sets bits of FL, and none of the reserved ones (10_state.md R14). -/
theorem step_fl_gains (h : step s = .next t) : ∃ bit : Byte, bit &&& 0xF8 = 0 ∧ t.fl = s.fl ||| bit := by
  rcases step_cases h with ⟨-, rfl⟩ | ⟨-, ⟨i, hi⟩ | ⟨f, rfl⟩⟩
  · exact ⟨0, by decide, BitVec.or_zero.symm⟩
  · simpa using exec_fl_gains hi
  · exact ⟨0, by decide, by simp⟩

theorem step_out_appends (h : step s = .next t) : ∃ es, t.out = s.out ++ es ∧ es.length ≤ 1 := by
  rcases step_cases h with ⟨-, rfl⟩ | ⟨-, ⟨i, hi⟩ | ⟨f, rfl⟩⟩
  · exact ⟨[], (List.append_nil _).symm, Nat.zero_le 1⟩
  · simpa using exec_out_appends hi
  · exact ⟨[], by simp, Nat.zero_le 1⟩

theorem raise_recordMatchesRunState (f : Fault) (s : State) : RecordMatchesRunState (raise f s) := by
  simp [RecordMatchesRunState]

/-- A RUNNING state has no fault record yet, so HLT leaves none behind. -/
theorem exec_recordMatchesRunState {i : Instr} (h : exec i s = .next t) (hr : s.runState = .running)
    (hs : RecordMatchesRunState s) : RecordMatchesRunState t := by
  unfold RecordMatchesRunState at hs ⊢
  rcases exec_runState_cases h with ⟨hrun, hrec⟩ | ⟨-, hrun, hrec⟩ | ⟨hrun, -, f, hrec⟩ <;> rw [hrun, hrec]
  · exact hs
  · simpa [hr] using hs
  · simp

theorem step_recordMatchesRunState (h : step s = .next t) (hs : RecordMatchesRunState s) :
    RecordMatchesRunState t := by
  rcases step_cases h with ⟨-, rfl⟩ | ⟨hr, ⟨i, hi⟩ | ⟨f, rfl⟩⟩
  · exact hs
  · exact exec_recordMatchesRunState hi (by simpa using hr) (by simpa [RecordMatchesRunState] using hs)
  · exact raise_recordMatchesRunState f _

/-- Settles O50: the checks before the fetch and every instruction write memory through `Memory.write` alone. -/
theorem stepKeepsMemoryCanonical : Obligations.StepKeepsMemoryCanonical :=
  fun _ _ hs h => step_memoryCanonical h hs

/-- Settles O51: a step gains no bit of FL among bits 3 to 7. -/
theorem stepKeepsReservedFlagBitsClear : Obligations.StepKeepsReservedFlagBitsClear := by
  intro s t hs h
  obtain ⟨bit, hbit, hfl⟩ := step_fl_gains h
  unfold FlagsReservedClear at hs ⊢
  rw [hfl, BitVec.and_or_distrib_right, hs, hbit]
  rfl

/-- Settles O52, by the three ways an instruction leaves run state and record. -/
theorem stepKeepsRecordMatchingRunState : Obligations.StepKeepsRecordMatchingRunState :=
  fun _ _ hs h => step_recordMatchesRunState h hs

/-- Settles O53: a step only ORs bits into FL. -/
theorem stepNeverClearsAFlag : Obligations.StepNeverClearsAFlag := by
  intro s t h
  obtain ⟨bit, -, hfl⟩ := step_fl_gains h
  rw [hfl]
  ext k
  simp +contextual

/-- Settles O54: a cycle runs at most one instruction. -/
theorem stepOnlyAppendsToTheTrace : Obligations.StepOnlyAppendsToTheTrace :=
  fun _ _ h => step_out_appends h

end Sys2Proof.Machine
end

section
/-! PROOF. The frames of the instructions (10_state.md R12, R14, R19 to R23). -/

namespace Sys2Proof.Machine

/-- Settles O31: what does not store leaves the whole memory. -/
theorem nonStoringInstructionsKeepMemory : Obligations.NonStoringInstructionsKeepMemory := by
  intro i s t hstore hpush hcall h a
  rw [State.readMem_def, exec_mem_eq h hstore hpush hcall, State.readMem_def]

/-- Settles O33, by the writes of each effect. -/
theorem registersOutsideTheWriteColumnKept : Obligations.RegistersOutsideTheWriteColumnKept :=
  fun _ _ _ h _ hq => exec_reg_eq h hq

/-- Settles O34: the effect of no other instruction, nor a fault, HLT, IRET or a `pc` update, writes FL. -/
theorem onlyCmpWritesFlags : Obligations.OnlyCmpWritesFlags :=
  fun _ _ _ hcmp h => exec_fl_eq h hcmp

/-- Settles O35, part by part: controller, trace, tick fields, run state and record. -/
theorem controlStateFrame : Obligations.ControlStateFrame := by
  intro i s t h
  obtain ⟨hinputs, hdraws⟩ := exec_tick_eq h
  exact ⟨exec_irqState_eq h, exec_out_eq h, hinputs, hdraws, exec_runState_cases h⟩

end Sys2Proof.Machine
end

section
/-! PROOF. FL influences nothing else (10_state.md R14; 43_control_flow.md R113): every operation of the model takes states that
agree but for FL to states that agree but for FL. -/

namespace Sys2Proof.Machine

/-- Two states that agree in everything but FL. -/
def AgreeButFl (s t : State) : Prop := ∃ g, t = { s with fl := g }

theorem advance_agreeButFl {u v : State} (h : AgreeButFl u v) (len : Nat) :
    AgreeButFl (advance len u) (advance len v) := by
  obtain ⟨g, rfl⟩ := h
  by_cases hpc : u.pc.toNat + len ≤ 255
  · rw [advance_inRange hpc, advance_inRange (s := { u with fl := g }) hpc]
    exact ⟨g, rfl⟩
  · rw [advance_past (by omega), advance_past (s := { u with fl := g }) (by show _ < u.pc.toNat + len; omega)]
    exact ⟨g, rfl⟩

theorem interruptReturn_agreeButFl {s s' : State} (h : AgreeButFl s s') :
    AgreeButFl (interruptReturn s) (interruptReturn s') := by
  obtain ⟨g, rfl⟩ := h
  rw [interruptReturn_eq, interruptReturn_eq]
  exact ⟨g, rfl⟩

theorem interruptEntry_agreeButFl {s s' : State} (h : AgreeButFl s s') (i : Fin 8) :
    AgreeButFl (interruptEntry i s) (interruptEntry i s') := by
  obtain ⟨g, rfl⟩ := h
  unfold interruptEntry
  rw [saveContext_eq, saveContext_eq]
  exact ⟨g, rfl⟩

theorem interruptCheck_agreeButFl {s s' : State} (h : AgreeButFl s s') :
    AgreeButFl (interruptCheck s) (interruptCheck s') := by
  have hirq : s'.irqState = s.irqState := by obtain ⟨g, rfl⟩ := h; rfl
  have harb : arbiter s' = arbiter s := by obtain ⟨g, rfl⟩ := h; rfl
  unfold interruptCheck
  rw [hirq, harb]
  cases s.irqState with
  | servicing => exact h
  | idle =>
    cases arbiter s with
    | none => exact h
    | some i => exact interruptEntry_agreeButFl h i

section Operands

variable {s s' : State} (h : AgreeButFl s s')
include h

theorem operandFetch_agreeButFl (k : Nat) {go go' : State} (hgo : AgreeButFl go go') :
    AgreeButFl (operandFetch k s go) (operandFetch k s' go') := by
  obtain ⟨g, rfl⟩ := h
  unfold operandFetch
  split_ifs
  · exact hgo
  · exact ⟨g, rfl⟩

theorem regOperand_agreeButFl (k : Nat) (b : Byte) {go go' : Reg → State} (hgo : ∀ r, AgreeButFl (go r) (go' r)) :
    AgreeButFl (regOperand k b s go) (regOperand k b s' go') := by
  apply operandFetch_agreeButFl h
  rcases Reg.ofByte?_cases b with ⟨r, rfl, -⟩ | ⟨hb, -⟩
  · simpa using hgo r
  · obtain ⟨g, rfl⟩ := h
    rw [regCheck_bad hb, regCheck_bad hb]
    exact ⟨g, rfl⟩

theorem formatR_agreeButFl (r : Byte) {go go' : Reg → State} (hgo : ∀ d, AgreeButFl (go d) (go' d)) :
    AgreeButFl (formatR r s go) (formatR r s' go') := regOperand_agreeButFl h 1 r hgo

theorem formatRR_agreeButFl (ra rb : Byte) {go go' : Reg → Reg → State}
    (hgo : ∀ a b, AgreeButFl (go a b) (go' a b)) : AgreeButFl (formatRR ra rb s go) (formatRR ra rb s' go') :=
  regOperand_agreeButFl h 1 ra fun a => regOperand_agreeButFl h 2 rb (hgo a)

theorem formatRI_agreeButFl (r : Byte) {go go' : Reg → State} (hgo : ∀ d, AgreeButFl (go d) (go' d)) :
    AgreeButFl (formatRI r s go) (formatRI r s' go') :=
  regOperand_agreeButFl h 1 r fun d => operandFetch_agreeButFl h 2 (hgo d)

theorem callThrough_agreeButFl (d : Reg) : AgreeButFl (callThrough d s) (callThrough d s') := by
  obtain ⟨g, rfl⟩ := h
  unfold callThrough
  split_ifs <;> exact ⟨g, rfl⟩

end Operands

section Runs

variable {s s' t : State}

/-- No instruction carries FL to another part of the state. -/
theorem exec_agreeButFl {i : Instr} (hs : AgreeButFl s s') (h : exec i s = .next t) :
    ∃ t', exec i s' = .next t' ∧ AgreeButFl t t' := by
  have ⟨g, hg⟩ := hs
  subst hg
  cases i <;> injection h with h <;> subst h <;> refine ⟨_, rfl, ?_⟩
  case hlt | ret => exact ⟨g, rfl⟩
  case iret => exact interruptReturn_agreeButFl hs
  case jmp => exact formatR_agreeButFl hs _ fun _ => ⟨g, rfl⟩
  case call => exact formatR_agreeButFl hs _ (callThrough_agreeButFl hs)
  case push | pop | prn | pra => exact formatR_agreeButFl hs _ fun _ => advance_agreeButFl ⟨g, rfl⟩ 2
  case ldi => exact formatRI_agreeButFl hs _ fun _ => advance_agreeButFl ⟨g, rfl⟩ 3
  case store | add | mul => exact formatRR_agreeButFl hs _ _ fun _ _ => advance_agreeButFl ⟨g, rfl⟩ 3
  case cmp => exact formatRR_agreeButFl hs _ _ fun _ _ => advance_agreeButFl ⟨_, rfl⟩ 3

theorem beforeFetch_agreeButFl (hs : AgreeButFl s s') (tick : Bool) :
    AgreeButFl (beforeFetch tick s) (beforeFetch tick s') := by
  apply interruptCheck_agreeButFl
  obtain ⟨g, rfl⟩ := hs
  exact ⟨g, rfl⟩

theorem fetchExecute_agreeButFl (hs : AgreeButFl s s') (h : fetchExecute s = .next t) :
    ∃ t', fetchExecute s' = .next t' ∧ AgreeButFl t t' := by
  have ⟨g, hg⟩ := hs
  have hw : fetchWindow s' = fetchWindow s := by rw [hg]; rfl
  unfold fetchExecute at h ⊢
  rw [hw]
  cases hd : decode (fetchWindow s) with
  | ok i rest => exact exec_agreeButFl hs (by simpa [hd] using h)
  | reject r =>
    rw [hd] at h
    injection h with h
    subst h hg
    exact ⟨_, rfl, g, rfl⟩

theorem cycle_agreeButFl {tick : Bool} (hs : AgreeButFl s s') (h : cycle tick s = .next t) :
    ∃ t', cycle tick s' = .next t' ∧ AgreeButFl t t' := by
  have hrun : s'.runState = s.runState := by obtain ⟨g, rfl⟩ := hs; rfl
  by_cases hr : s.runState = .running
  · rw [cycle_running hr] at h
    rw [cycle_running (hrun.trans hr)]
    exact fetchExecute_agreeButFl (beforeFetch_agreeButFl hs tick) h
  · rw [cycle_terminal hr] at h
    injection h with h
    subst h
    exact ⟨s', cycle_terminal (hrun ▸ hr) tick, hs⟩

end Runs

/-- Settles O48, through the fetch, the checks before it and the fourteen instructions. -/
theorem flagsInfluenceNothingElse : Obligations.FlagsInfluenceNothingElse := by
  intro tick s t f h
  obtain ⟨_, ht, g, rfl⟩ := cycle_agreeButFl ⟨f, rfl⟩ h
  exact ⟨g, ht⟩

end Sys2Proof.Machine
end

section
/-! PROOF. The record of a fault, the state after reset and the loader's write (10_state.md R23, R25 to R29; 20_memory.md R43). -/

namespace Sys2Proof.Machine

theorem byteAt?_eq (s : State) (k : Nat) :
    s.byteAt? k = if s.pc.toNat + k ≤ 255 then some (s.readMem (s.pc + BitVec.ofNat 8 k)) else none := by
  simp [State.byteAt?, BitVec.ofNat_add]

/-- Settles O24: the record is `faultRecordOf`. -/
theorem raiseRecordsTheFault : Obligations.RaiseRecordsTheFault := by
  intro f s
  have h1 : s.pc.toNat + 1 ≤ 255 ↔ s.pc.toNat ≤ 254 := by omega
  have h2 : s.pc.toNat + 2 ≤ 255 ↔ s.pc.toNat ≤ 253 := by omega
  refine ⟨faultRecordOf f s, rfl, rfl, rfl, rfl, rfl, ?_, ?_⟩
  · exact (byteAt?_eq s 1).trans (by simp only [h1]; rfl)
  · exact (byteAt?_eq s 2).trans (by simp only [h2]; rfl)

/-- Settles O55, register by register. -/
theorem resetRegisterValues : Obligations.ResetRegisterValues := by
  refine ⟨fun r hr => ?_, rfl⟩
  cases r
  case r7 => exact absurd rfl hr
  all_goals rfl

/-- Settles O56: the fields of `State.reset`. -/
theorem resetControlState : Obligations.ResetControlState :=
  ⟨rfl, rfl, rfl, rfl, rfl, rfl, fun _ => rfl⟩

/-- Settles O57: empty memory, FL 0, RUNNING with no record. -/
theorem resetMeetsTheInvariants : Obligations.ResetMeetsTheInvariants :=
  ⟨reset_memoryCanonical, rfl, by simp [RecordMatchesRunState, State.reset]⟩

/-- What a read gives after bytes were laid from `a` on, none of them past address 255. -/
theorem Memory.read_writeImage (bs : List Byte) {a : Nat} (h : a + bs.length ≤ 256) (m : Memory) (x : Byte) :
    Memory.read (writeImage bs a m) x = if a ≤ x.toNat then bs[x.toNat - a]?.getD (Memory.read m x) else
      Memory.read m x := by
  induction bs generalizing a m with
  | nil => simp [writeImage]
  | cons b bs ih =>
    rw [List.length_cons] at h
    have hx : x = BitVec.ofNat 8 a ↔ x.toNat = a := by
      rw [← BitVec.toNat_inj, BitVec.toNat_ofNat, Nat.mod_eq_of_lt (by omega)]
    rw [writeImage, ih (by omega), Memory.read_write]
    simp only [hx]
    rcases lt_trichotomy x.toNat a with hlt | heq | hgt
    · rw [if_neg (by omega), if_neg (by omega), if_neg (by omega)]
    · simp [heq]
    · have hsucc : x.toNat - a = x.toNat - (a + 1) + 1 := by omega
      rw [if_pos (by omega), if_neg (by omega), if_pos (by omega), hsucc, List.getElem?_cons_succ]

/-- Settles O58, from what the image's bytes read as over the empty memory. -/
theorem loaderPlacesTheImage : Obligations.LoaderPlacesTheImage := by
  refine ⟨fun _ => rfl, fun image hlen => ⟨_, if_pos hlen, fun a => ?_, rfl⟩⟩
  exact (Memory.read_writeImage image (a := 0) (by omega) [] a).trans (by simp)

end Sys2Proof.Machine
end

section
/-! PROOF. Memory (20_memory.md R35, R36, R39): what a write does to reads, the one byte a storing instruction can change, and
that the opcode fetch reads the same memory. -/

namespace Sys2Proof.Machine

variable {s t : State}

/-! ### The one byte an instruction can change -/

/-- A byte that no effect of the instruction changes is kept: no fault, no HLT, no IRET and no `pc` update writes memory. -/
theorem exec_readMem_eq {i : Instr} (h : exec i s = .next t) {x : Byte}
    (hx : ∀ u, Effect i s u → u.readMem x = s.readMem x) : t.readMem x = s.readMem x := by
  rcases exec_written h with ⟨hmem, -, -⟩ | ⟨u, hu, hmem, -, -⟩
  · rw [State.readMem_def, hmem, State.readMem_def]
  · rw [State.readMem_def, hmem, ← State.readMem_def, hx u hu]

theorem stackPush_readMem_of_ne {x : Byte} (hx : x ≠ pushAddr s) (v : Byte) :
    (stackPush v s).readMem x = s.readMem x :=
  (stackPush_readMem v x s).trans (if_neg hx)

/-! ### The byte STORE writes and the byte the fetch reads -/

@[simp] theorem advance_mem (len : Nat) (s : State) : (advance len s).mem = s.mem := by
  obtain ⟨-, hmem, -⟩ := (advance_moved len s).keeps
  exact hmem

/-- STORE writes as soon as both operand bytes lie in memory, even where its advance faults (42_data_movement_output.md R103). -/
theorem exec_store_mem {a b : Reg} (h : exec (.store a.toByte b.toByte) s = .next t) (hpc : s.pc.toNat ≤ 253) :
    t.mem = Memory.write s.mem (s.reg a) (s.reg b) := by
  injection h with h
  rw [← h, formatRR_toByte (by omega), advance_mem, writeMem_mem]

theorem fetchWindow_head? (s : State) : (fetchWindow s).head? = some (s.readMem s.pc) := rfl

/-! ### The obligations -/

/-- Settles O32, from the effect of each of the three; an instruction that faults on an operand has none. -/
theorem storingInstructionsWriteOneByte : Obligations.StoringInstructionsWriteOneByte := by
  refine ⟨fun ra rb s t h x hx => exec_readMem_eq h fun u hu => ?_,
    fun r s t h x hx => exec_readMem_eq h fun u hu => ?_,
    fun r s t h x hx => exec_readMem_eq h fun u hu => ?_, fun _ => rfl⟩
  · cases hu with
    | store a b => exact State.readMem_writeMem_of_ne (hx a (Reg.ofByte?_toByte a)) s _
  · cases hu with
    | push r => exact stackPush_readMem_of_ne hx _
  · cases hu with
    | call r s ret => exact stackPush_readMem_of_ne hx ret

/-- Settles O21: the two cases of a read after a write. -/
theorem readAfterWrite : Obligations.ReadAfterWrite :=
  fun s a v => ⟨s.readMem_writeMem_same a v, fun _ hb => State.readMem_writeMem_of_ne hb s v, rfl⟩

/-- Settles O22: the fetch reads the memory STORE wrote, at the address it wrote. -/
theorem storeIsSeenByTheNextFetch : Obligations.StoreIsSeenByTheNextFetch := by
  intro a b s t u h hpc hmem hupc
  rw [fetchWindow_head?, State.readMem_def, hmem, hupc, exec_store_mem h hpc, Memory.read_write_same]

end Sys2Proof.Machine
end

section
/-! PROOF. The decoder and the encoder are inverse to each other (30_encoding.md R50 to R57): an operand list decodes for a row just
when it is the operand bytes of a well-formed instruction of that row, and the opcode byte picks the row. -/

namespace Sys2Proof

variable {i : Instr} {o : Op} {b : Byte} {bs rest : List Byte}

/-! ### The opcode byte -/

theorem Op.mem_all (o : Op) : o ∈ Op.all := by cases o <;> decide

/-- A byte is unknown just when it is the byte of no row (30_encoding.md R55). -/
theorem Op.ofByte?_eq_none_iff (b : Byte) : Op.ofByte? b = none ↔ b ∉ Op.all.map Op.code := by
  simp [Op.ofByte?]

@[simp] theorem decode_code (o : Op) (rest : List Byte) : decode (o.code :: rest) = decodeOperands o rest := by
  simp [decode]

theorem decode_of_not_mem_codes (h : b ∉ Op.all.map Op.code) (rest : List Byte) :
    decode (b :: rest) = .reject (.unknownOpcode b) := by
  simp [decode, (Op.ofByte?_eq_none_iff b).2 h]

/-- All that decoding can answer with an instruction: byte 0 is the byte of a row, whose operands decode. -/
theorem decode_ok (h : decode bs = .ok i rest) :
    ∃ (o : Op) (tail : List Byte), bs = o.code :: tail ∧ decodeOperands o tail = .ok i rest := by
  cases bs with
  | nil => simp [decode] at h
  | cons b tail =>
    cases ho : Op.ofByte? b with
    | none => simp [decode, ho] at h
    | some o => exact ⟨o, tail, by rw [(Op.ofByte?_eq_some_iff b o).1 ho], by simpa [decode, ho] using h⟩

/-! ### The operand bytes of a row -/

theorem decodeOperands_operandBytes (h : i.WellFormed) (rest : List Byte) :
    decodeOperands i.op (i.operandBytes ++ rest) = .ok i rest := by
  cases i
  case hlt | ret | iret => rfl
  case push r | pop r | prn r | pra r | call r | jmp r =>
    obtain ⟨r, rfl⟩ := (regByteOk_iff r).1 h
    exact decodeR_cons _ r rest
  case ldi r imm =>
    obtain ⟨r, rfl⟩ := (regByteOk_iff r).1 h
    exact decodeRI_cons _ r imm rest
  case store ra rb | add ra rb | mul ra rb | cmp ra rb =>
    obtain ⟨ha, hb⟩ := Bool.and_eq_true_iff.1 h
    obtain ⟨a, rfl⟩ := (regByteOk_iff ra).1 ha
    obtain ⟨b, rfl⟩ := (regByteOk_iff rb).1 hb
    exact decodeRR_cons _ a b rest

/-- All that a row's operand bytes can answer with an instruction: one of that row, well formed, whose operand bytes they are. -/
theorem decodeOperands_ok (h : decodeOperands o bs = .ok i rest) :
    i.WellFormed ∧ i.op = o ∧ bs = i.operandBytes ++ rest := by
  cases o
  case hlt | ret | iret => cases h; exact ⟨rfl, rfl, rfl⟩
  case push | pop | prn | pra | call | jmp =>
    obtain ⟨r, rfl, rfl⟩ := decodeR_ok h
    exact ⟨regByteOk_toByte r, rfl, rfl⟩
  case ldi =>
    obtain ⟨r, imm, rfl, rfl⟩ := decodeRI_ok h
    exact ⟨regByteOk_toByte r, rfl, rfl⟩
  case store | add | mul | cmp =>
    obtain ⟨a, b, rfl, rfl⟩ := decodeRR_ok h
    exact ⟨Bool.and_eq_true_iff.2 ⟨regByteOk_toByte a, regByteOk_toByte b⟩, rfl, rfl⟩

/-! ### Whole instructions -/

theorem decode_encode (h : i.WellFormed) (rest : List Byte) : decode (encode i ++ rest) = .ok i rest :=
  (decode_code i.op _).trans (decodeOperands_operandBytes h rest)

theorem wellFormed_and_eq_encode_of_decode (h : decode bs = .ok i rest) : i.WellFormed ∧ bs = encode i ++ rest := by
  obtain ⟨o, tail, rfl, ho⟩ := decode_ok h
  obtain ⟨hwf, rfl, rfl⟩ := decodeOperands_ok ho
  exact ⟨hwf, rfl⟩

theorem encode_length (i : Instr) : (encode i).length = i.op.size := by cases i <;> rfl

/-- Settles O2: the opcode byte finds the row, the operand bytes decode in its format. -/
theorem decodeOfEncodeIsTheInstruction : Obligations.DecodeOfEncodeIsTheInstruction :=
  fun _ rest h => decode_encode h rest

/-- Settles O3, from what each of the three formats accepts. -/
theorem decodedBytesAreTheEncoding : Obligations.DecodedBytesAreTheEncoding :=
  fun _ _ _ h => wellFormed_and_eq_encode_of_decode h

/-- Settles O5: the bytes taken are the encoding, whose length is its row's size. -/
theorem lengthIsFixedByTheOpcode : Obligations.LengthIsFixedByTheOpcode := by
  intro b bs rest i h
  obtain ⟨-, henc⟩ := wellFormed_and_eq_encode_of_decode h
  have hb : b = i.op.code := (List.cons.inj henc).1
  refine ⟨i.op, (Op.ofByte?_eq_some_iff b i.op).2 hb, ?_, Laws.EncodeLength.size_bounds i.op⟩
  rw [henc, List.length_append, encode_length]

/-- Settles O1: each word is the encoding of its instruction. -/
theorem tableWordsDecodeToTheirInstructions : Obligations.TableWordsDecodeToTheirInstructions :=
  ⟨decode_encode (i := .hlt) rfl [], decode_encode (i := .ret) rfl [], decode_encode (i := .iret) rfl [],
    decode_encode (i := .push 3) rfl [], decode_encode (i := .pop 7) rfl [], decode_encode (i := .prn 1) rfl [],
    decode_encode (i := .pra 0) rfl [], decode_encode (i := .call 2) rfl [], decode_encode (i := .jmp 6) rfl [],
    decode_encode (i := .ldi 5 255) rfl [], decode_encode (i := .store 1 2) rfl [],
    decode_encode (i := .add 3 4) rfl [], decode_encode (i := .mul 4 3) rfl [], decode_encode (i := .cmp 0 7) rfl []⟩

end Sys2Proof
end

section
/-! PROOF. What the decoder rejects, by name and from left to right (30_encoding.md R52, R55, R56; 40_execution_loop.md R80). -/

namespace Sys2Proof

/-! ### Register bytes of 8 or more -/

section BadRegister

variable {b : Byte} (hb : 8 ≤ b.toNat) (rest : List Byte)
include hb

theorem decodeR_bad (mk : Byte → Instr) : decodeR mk (b :: rest) = .reject (.badRegister b) := by
  simp [decodeR, (Reg.ofByte?_eq_none_iff b).2 hb]

theorem decodeRI_bad (mk : Byte → Byte → Instr) : decodeRI mk (b :: rest) = .reject (.badRegister b) := by
  simp [decodeRI, (Reg.ofByte?_eq_none_iff b).2 hb]

theorem decodeRR_bad_first (mk : Byte → Byte → Instr) : decodeRR mk (b :: rest) = .reject (.badRegister b) := by
  simp [decodeRR, (Reg.ofByte?_eq_none_iff b).2 hb]

theorem decodeRR_bad_second (mk : Byte → Byte → Instr) (a : Reg) :
    decodeRR mk (a.toByte :: b :: rest) = .reject (.badRegister b) := by
  simp [decodeRR, (Reg.ofByte?_eq_none_iff b).2 hb]

/-- The first operand byte of every row that has one names a register. -/
theorem decodeOperands_bad_first {o : Op} (ho : 2 ≤ o.size) :
    decodeOperands o (b :: rest) = .reject (.badRegister b) := by
  cases o
  case hlt | ret | iret => simp [Op.size] at ho
  case push | pop | prn | pra | call | jmp => exact decodeR_bad hb rest _
  case ldi => exact decodeRI_bad hb rest _
  case store | add | mul | cmp => exact decodeRR_bad_first hb rest _

/-- The second operand byte names a register in every row that has one but LDI's, where it is the immediate. -/
theorem decodeOperands_bad_second {o : Op} (ho : o.size = 3) (hldi : o ≠ .ldi) (a : Reg) :
    decodeOperands o (a.toByte :: b :: rest) = .reject (.badRegister b) := by
  cases o
  case store | add | mul | cmp => exact decodeRR_bad_second hb rest _ a
  case ldi => exact absurd rfl hldi
  all_goals simp [Op.size] at ho

end BadRegister

/-! ### The number of unknown opcode bytes -/

/-- The values of a byte that some row of the table has are the table's bytes, each once. -/
theorem known_bytes_perm :
    ((List.range 256).filter fun n => !(Op.ofByte? (BitVec.ofNat 8 n)).isNone).Perm
      (Op.all.map fun o => o.code.toNat) := by
  rw [List.perm_ext_iff_of_nodup (List.nodup_range.filter _) (by decide)]
  intro n
  have hcode (o : Op) (hn : n < 256) : BitVec.ofNat 8 n = o.code ↔ o.code.toNat = n := by
    rw [← BitVec.toNat_inj, BitVec.toNat_ofNat, Nat.mod_eq_of_lt hn, eq_comm]
  simp only [List.mem_filter, List.mem_range, List.mem_map, Op.mem_all, true_and, Option.not_isNone,
    Option.isSome_iff_exists, Op.ofByte?_eq_some_iff]
  constructor
  · rintro ⟨hn, o, ho⟩
    exact ⟨o, (hcode o hn).1 ho⟩
  · rintro ⟨o, rfl⟩
    exact ⟨o.code.isLt, o, (hcode o o.code.isLt).2 rfl⟩

/-- All 256 byte values but the 14 of the table. -/
theorem length_unknown_bytes :
    ((List.range 256).filter fun n => (Op.ofByte? (BitVec.ofNat 8 n)).isNone).length = 242 := by
  have hall := List.length_eq_length_filter_add (l := List.range 256) fun n => (Op.ofByte? (BitVec.ofNat 8 n)).isNone
  have hknown : _ = 14 := known_bytes_perm.length_eq
  rw [List.length_range] at hall
  omega

/-! ### The obligations -/

/-- Settles O4: the 14 bytes are the table's, and the other values of a byte are 256 less 14. -/
theorem otherOpcodeBytesAreUnknown : Obligations.OtherOpcodeBytesAreUnknown :=
  ⟨fun _ rest h => decode_of_not_mem_codes h rest, length_unknown_bytes, decode_of_not_mem_codes (by decide) []⟩

/-- Settles O6: the opcodes listed are the rows with a first, and with a second, register byte. -/
theorem registerBytesAboveSevenAreRejected : Obligations.RegisterBytesAboveSevenAreRejected := by
  have hfirst : ([0x45, 0x46, 0x47, 0x48, 0x50, 0x54, 0x82, 0x84, 0xA0, 0xA2, 0xA7] : List Byte) =
      (Op.all.filter (2 ≤ ·.size)).map Op.code := rfl
  have hsecond : ([0x84, 0xA0, 0xA2, 0xA7] : List Byte) =
      (Op.all.filter fun o => o.size = 3 ∧ o ≠ .ldi).map Op.code := rfl
  constructor
  · intro op hop b rest hb
    obtain ⟨o, ho, rfl⟩ := List.mem_map.1 (hfirst ▸ hop)
    rw [decode_code]
    exact decodeOperands_bad_first hb rest (by simpa using (List.mem_filter.1 ho).2)
  · intro op hop a b rest hb
    obtain ⟨o, ho, rfl⟩ := List.mem_map.1 (hsecond ▸ hop)
    obtain ⟨hsize, hldi⟩ := of_decide_eq_true (List.mem_filter.1 ho).2
    rw [decode_code]
    exact decodeOperands_bad_second hb rest hsize hldi a

end Sys2Proof
end

section
/-! PROOF. The cycle (40_execution_loop.md R70 to R81): what the fetch answers, one lemma per answer of the
decoder, and the obligations that follow from it. -/

namespace Sys2Proof.Machine

variable {s : State} {i : Instr} {rest : List Byte}

/-! ### The fetch, by the decoder's answer -/

theorem fetchExecute_ok (h : decode (fetchWindow s) = .ok i rest) : fetchExecute s = exec i s := by
  simp [fetchExecute, h]

theorem fetchExecute_reject {r : Reject} (h : decode (fetchWindow s) = .reject r) :
    fetchExecute s = .next (raise (faultOfReject r s) s) := by
  simp [fetchExecute, h]

theorem decode_fetchWindow_unknown (h : Op.ofByte? (s.readMem s.pc) = none) :
    decode (fetchWindow s) = .reject (.unknownOpcode (s.readMem s.pc)) :=
  decode_of_not_mem_codes ((Op.ofByte?_eq_none_iff _).1 h) _

theorem fetchExecute_next (s : State) : ∃ t, fetchExecute s = .next t := by
  cases h : decode (fetchWindow s) with
  | ok i rest => rw [fetchExecute_ok h]; exact exec_next i s
  | reject r => exact ⟨_, fetchExecute_reject h⟩

theorem cycle_next (tick : Bool) (s : State) : ∃ t, cycle tick s = .next t := by
  by_cases hr : s.runState = .running
  · rw [cycle_running hr]; exact fetchExecute_next _
  · exact ⟨s, cycle_terminal hr tick⟩

/-! ### The obligations -/

/-- Settles O41: a cycle is an execution, a raise or nothing. -/
theorem everyStepHasANextState : Obligations.EveryStepHasANextState :=
  fun s => cycle_next (tickInput s) (sampleTick s)

/-- Settles O7: `pc` is written by no part of HLT. -/
theorem hltHaltsInPlace : Obligations.HltHaltsInPlace :=
  ⟨rfl, fun _ => ⟨rfl, cycle_terminal nofun⟩⟩

/-- Settles O23, on both sides of address 255. -/
theorem advanceNeverWraps : Obligations.AdvanceNeverWraps := by
  refine fun len s => ⟨fun h => ⟨s.pc + BitVec.ofNat 8 len, ?_, advance_inRange h⟩, advance_past⟩
  rw [BitVec.toNat_add, BitVec.toNat_ofNat, Nat.add_mod_mod, Nat.mod_eq_of_lt (by omega)]

/-- Settles O36: the sampled state is RUNNING still, and its fetch decodes. -/
theorem stepRunsTheDecodedInstruction : Obligations.StepRunsTheDecodedInstruction := by
  refine ⟨fun s hr i rest hd => ?_, fun s b bs hr ht => ?_, fun s hr ht => ?_⟩
  · exact (cycle_running ((sampleTick_runState s).trans hr) _).trans (fetchExecute_ok hd)
  · simp [tickInput, sampleTick, hr, ht]
  · simp [tickInput, sampleTick, hr, ht]

/-- Settles O37: neither check changes anything. -/
theorem quietCycleIsOneInstruction : Obligations.QuietCycleIsOneInstruction := by
  intro s i rest hr hquiet hd
  have hcheck : interruptCheck s = s := hquiet.elim interruptCheck_servicing interruptCheck_nothing
  rw [cycle_running hr, beforeFetch, timerCheck_false, hcheck, fetchExecute_ok hd]

/-- Settles O39: the decoder rejects on byte 0 alone. -/
theorem unknownOpcodeFaultsTheCycle : Obligations.UnknownOpcodeFaultsTheCycle :=
  fun tick _ hr h => (cycle_running hr tick).trans (fetchExecute_reject (decode_fetchWindow_unknown h))

/-- Settles O40: in a terminal state no `tick` is sampled either. -/
theorem terminalStatesAreInert : Obligations.TerminalStatesAreInert := by
  refine fun s h => ⟨cycle_terminal h, ?_, rfl⟩
  rw [step, sampleTick_terminal h, cycle_terminal h]

/-- Settles O42: the timer's bit is bit 0, and `beforeFetch` begins with the check. -/
theorem timerCheckSetsBitZeroOfIs : Obligations.TimerCheckSetsBitZeroOfIs :=
  ⟨timerCheck_true, timerCheck_false, fun tick _ hr => cycle_running hr tick⟩

end Sys2Proof.Machine
end

section
/-! PROOF. The fetch and the execution agree on the operands (40_execution_loop.md R77, R78, R80): the decoder's rejection of
operand bytes is the fault that the operand form of the execution raises, in each format and wherever memory ends. -/

namespace Sys2Proof.Machine

/-- From `pc` on, memory holds the bytes, as far as the addresses lie below 256. -/
def BytesAtPc (bs : List Byte) (s : State) : Prop :=
  ∀ k b, bs[k]? = some b → s.pc.toNat + k ≤ 255 → s.readMem (BitVec.ofNat 8 (s.pc.toNat + k)) = b

/-- Steps 4 to 6 of a cycle, from the decoder's answer on. -/
def runDecoded (d : Decoded) (s : State) : Host.Outcome State Fault Refusal :=
  match d with
  | .ok i _ => exec i s
  | .reject r => .next (raise (faultOfReject r s) s)

theorem fetchExecute_eq_runDecoded (s : State) : fetchExecute s = runDecoded (decode (fetchWindow s)) s := rfl

variable {s : State} {i : Instr}

theorem byteAt?_past {k : Nat} (h : 255 < s.pc.toNat + k) : s.byteAt? k = none := if_neg (by omega)

theorem BytesAtPc.byteAt? {bs : List Byte} (h : BytesAtPc bs s) {k : Nat} {b : Byte} (hb : bs[k]? = some b)
    (hk : s.pc.toNat + k ≤ 255) : s.byteAt? k = some b := by
  rw [State.byteAt?, if_pos hk, h k b hb hk]

/-- Byte 0 is the opcode, so the rest of the window is decoded in its row's format. -/
theorem BytesAtPc.decode_fetchWindow (h : BytesAtPc (encode i) s) :
    decode (fetchWindow s) = decodeOperands i.op ((s.byteAt? 1).toList ++ (s.byteAt? 2).toList) := by
  have h0 : s.readMem s.pc = i.op.code := by simpa using h 0 i.op.code rfl (by omega)
  rw [fetchWindow, h0, decode_code]

/-! ### One operand byte -/

section Operand

variable {k : Nat} {b : Byte} {rest : List Byte} {dec : List Byte → Decoded}

/-- An operand byte past address 255 is missing for the decoder and past the end for the execution; else both go on. -/
theorem runDecoded_operandFetch {go : State} (hb : s.pc.toNat + k ≤ 255 → s.byteAt? k = some b)
    (hrest : 255 < s.pc.toNat + k → rest = []) (hnil : dec [] = .reject (.missingByte k))
    (hgo : s.pc.toNat + k ≤ 255 → runDecoded (dec (b :: rest)) s = .next go) :
    runDecoded (dec ((s.byteAt? k).toList ++ rest)) s = .next (operandFetch k s go) := by
  by_cases hk : s.pc.toNat + k ≤ 255
  · rw [hb hk, operandFetch_inRange hk]
    exact hgo hk
  · rw [byteAt?_past (by omega), hrest (by omega), operandFetch_past (by omega)]
    exact congrArg (runDecoded · s) hnil

/-- A register byte of 8 or more is rejected by the decoder and raised by the execution; else both go on with the register. -/
theorem runDecoded_regOperand {go : Reg → State} (hb : s.pc.toNat + k ≤ 255 → s.byteAt? k = some b)
    (hrest : 255 < s.pc.toNat + k → rest = []) (hnil : dec [] = .reject (.missingByte k))
    (hbad : 8 ≤ b.toNat → dec (b :: rest) = .reject (.badRegister b))
    (hgo : ∀ r : Reg, b = r.toByte → s.pc.toNat + k ≤ 255 → runDecoded (dec (r.toByte :: rest)) s = .next (go r)) :
    runDecoded (dec ((s.byteAt? k).toList ++ rest)) s = .next (regOperand k b s go) := by
  refine runDecoded_operandFetch hb hrest hnil fun hk => ?_
  rcases Reg.ofByte?_cases b with ⟨r, rfl, -⟩ | ⟨h8, -⟩
  · rw [regCheck_toByte, hgo r rfl hk]
  · rw [hbad h8, regCheck_bad h8]
    rfl

theorem byteAt?_two_toList_past (h : 255 < s.pc.toNat + 1) : (s.byteAt? 2).toList = [] := by
  rw [byteAt?_past (by omega), Option.toList_none]

end Operand

/-! ### The three formats -/

theorem runDecoded_decodeR {mk : Byte → Instr} {r : Byte} {go : Reg → State}
    (h1 : s.pc.toNat + 1 ≤ 255 → s.byteAt? 1 = some r) (hexec : exec (mk r) s = .next (formatR r s go)) :
    runDecoded (decodeR mk ((s.byteAt? 1).toList ++ (s.byteAt? 2).toList)) s = exec (mk r) s := by
  rw [hexec, formatR]
  refine runDecoded_regOperand h1 byteAt?_two_toList_past rfl (decodeR_bad · _ mk) ?_
  rintro d rfl hk
  rw [decodeR_cons, runDecoded, hexec, formatR_toByte hk]

theorem runDecoded_decodeRR {mk : Byte → Byte → Instr} {ra rb : Byte} {go : Reg → Reg → State}
    (h1 : s.pc.toNat + 1 ≤ 255 → s.byteAt? 1 = some ra) (h2 : s.pc.toNat + 2 ≤ 255 → s.byteAt? 2 = some rb)
    (hexec : exec (mk ra rb) s = .next (formatRR ra rb s go)) :
    runDecoded (decodeRR mk ((s.byteAt? 1).toList ++ (s.byteAt? 2).toList)) s = exec (mk ra rb) s := by
  rw [hexec, formatRR]
  refine runDecoded_regOperand h1 byteAt?_two_toList_past rfl (decodeRR_bad_first · _ mk) ?_
  rintro a rfl -
  rw [← List.append_nil (s.byteAt? 2).toList]
  refine runDecoded_regOperand (dec := fun bs => decodeRR mk (a.toByte :: bs)) h2 (fun _ => rfl)
    (by simp [decodeRR]) (decodeRR_bad_second · [] mk a) ?_
  rintro b rfl hk
  rw [decodeRR_cons, runDecoded, hexec, formatRR_toByte hk]

theorem runDecoded_decodeRI {mk : Byte → Byte → Instr} {r imm : Byte} {go : Reg → State}
    (h1 : s.pc.toNat + 1 ≤ 255 → s.byteAt? 1 = some r) (h2 : s.pc.toNat + 2 ≤ 255 → s.byteAt? 2 = some imm)
    (hexec : exec (mk r imm) s = .next (formatRI r s go)) :
    runDecoded (decodeRI mk ((s.byteAt? 1).toList ++ (s.byteAt? 2).toList)) s = exec (mk r imm) s := by
  rw [hexec, formatRI]
  refine runDecoded_regOperand h1 byteAt?_two_toList_past rfl (decodeRI_bad · _ mk) ?_
  rintro d rfl -
  rw [← List.append_nil (s.byteAt? 2).toList]
  refine runDecoded_operandFetch (dec := fun bs => decodeRI mk (d.toByte :: bs)) h2 (fun _ => rfl)
    (by simp [decodeRI]) fun hk => ?_
  rw [decodeRI_cons, runDecoded, hexec, formatRI_toByte hk]

/-! ### Every instruction -/

theorem BytesAtPc.fetchExecute_eq (h : BytesAtPc (encode i) s) : fetchExecute s = exec i s := by
  rw [fetchExecute_eq_runDecoded, h.decode_fetchWindow]
  cases i
  case hlt | ret | iret => rfl
  case push | pop | prn | pra | call | jmp => exact runDecoded_decodeR (h.byteAt? rfl) rfl
  case ldi => exact runDecoded_decodeRI (h.byteAt? rfl) (h.byteAt? rfl) rfl
  case store | add | mul | cmp => exact runDecoded_decodeRR (h.byteAt? rfl) (h.byteAt? rfl) rfl

/-- Settles O38, format by format. -/
theorem cycleFaultsAsTheInstructionDoes : Obligations.CycleFaultsAsTheInstructionDoes :=
  fun tick _ _ hr h => (cycle_running hr tick).trans (BytesAtPc.fetchExecute_eq h)

end Sys2Proof.Machine
end

section
/-! PROOF. A tick reaches only bit 0 of IS (40_execution_loop.md R84): blotting that bit out of a state, wherever the state
holds it, changes an operation's result in nothing that is not blotted, unless the operation reads `x[6]`. -/

namespace Sys2Proof.Machine

/-! ### Blotting the timer's bit -/

/-- A fault record with the timer's bit of its copy of IS blotted out. -/
def FaultRecord.blot (f : FaultRecord) : FaultRecord := { f with regs := f.regs.blotTimerBit }

/-- A state with the timer's bit of IS blotted out, in the fault record too, and without the `tick` inputs to come. -/
def State.blot (s : State) : State :=
  { s with regs := s.regs.blotTimerBit, faultRecord := s.faultRecord.map FaultRecord.blot, tickInputs := [], tickDraws := 0 }

theorem blot_eq_iff (s t : State) : s.blot = t.blot ↔ AgreeUpToTimerBit s t := by
  unfold AgreeUpToTimerBit
  simp only [State.blot, State.mk.injEq, and_true]
  constructor
  · rintro ⟨hregs, hpc, hfl, hmem, hirq, hrun, hrec, hout⟩
    exact ⟨hregs, hpc, hfl, hmem, hirq, hrun, hout, hrec⟩
  · rintro ⟨hregs, hpc, hfl, hmem, hirq, hrun, hout, hrec⟩
    exact ⟨hregs, hpc, hfl, hmem, hirq, hrun, hrec, hout⟩

/-- Blotting the registers before a write is not seen after it. -/
theorem blotTimerBit_set_blotTimerBit (g : Regs) (r : Reg) (v : Byte) :
    (g.blotTimerBit.set r v).blotTimerBit = (g.set r v).blotTimerBit := by
  unfold Regs.blotTimerBit
  by_cases h : r = .r6
  · subst h; simp
  · rw [Regs.get_set_of_ne (Ne.symm h), Regs.get_set_of_ne (Ne.symm h), Regs.get_set_same, Regs.set_comm (Ne.symm h),
      Regs.set_set, BitVec.or_assoc, BitVec.or_self]

@[simp] theorem blotTimerBit_blotTimerBit (g : Regs) : g.blotTimerBit.blotTimerBit = g.blotTimerBit := by
  simp [Regs.blotTimerBit, BitVec.or_assoc]

@[simp] theorem blot_comp_blot : FaultRecord.blot ∘ FaultRecord.blot = FaultRecord.blot := by
  funext f
  simp [FaultRecord.blot]

@[simp] theorem blot_pc (s : State) : s.blot.pc = s.pc := rfl
@[simp] theorem blot_readMem (s : State) (a : Byte) : s.blot.readMem a = s.readMem a := rfl

theorem blot_reg_of_ne {r : Reg} (h : r ≠ .r6) (s : State) : s.blot.reg r = s.reg r := Regs.get_set_of_ne h ..

/-! ### Operations that carry what is blotted nowhere else -/

/-- The operation's result depends, up to the blot, on the blotted state only. -/
def IgnoresTimerBit (f : State → State) : Prop := ∀ s, (f s.blot).blot = (f s).blot

theorem IgnoresTimerBit.congr {f : State → State} (hf : IgnoresTimerBit f) {s t : State} (h : s.blot = t.blot) :
    (f s).blot = (f t).blot := by
  rw [← hf s, h, hf t]

theorem IgnoresTimerBit.comp {f g : State → State} (hg : IgnoresTimerBit g) (hf : IgnoresTimerBit f) :
    IgnoresTimerBit fun s => g (f s) := fun s => hg.congr (hf s)

/-- An operation may also read what is not blotted, to choose what it does. -/
theorem IgnoresTimerBit.param {α : Type} {f : α → State → State} (hf : ∀ a, IgnoresTimerBit (f a)) {v : State → α}
    (hv : ∀ s : State, v s.blot = v s) : IgnoresTimerBit fun s => f (v s) s := by
  intro s
  show (f (v s.blot) s.blot).blot = _
  rw [hv s, hf]

theorem ignoresTimerBit_setReg (r : Reg) (v : Byte) : IgnoresTimerBit fun s => s.setReg r v :=
  fun s => by simp [State.blot, State.setReg, blotTimerBit_set_blotTimerBit]

theorem ignoresTimerBit_writeMem (a v : Byte) : IgnoresTimerBit fun s => s.writeMem a v :=
  fun s => by simp [State.blot, State.writeMem]

theorem ignoresTimerBit_jumpTo (p : Byte) : IgnoresTimerBit (jumpTo p) := fun s => by simp [State.blot, jumpTo]

theorem ignoresTimerBit_emit (e : Event) : IgnoresTimerBit (emit e) := fun s => by simp [State.blot, emit]

theorem ignoresTimerBit_accumulateFlag (b : Byte) : IgnoresTimerBit (accumulateFlag b) :=
  fun s => by simp [State.blot, accumulateFlag]

/-- The record holds a copy of the registers, blotted as they are. -/
theorem faultRecordOf_blot (f : Fault) (s : State) : (faultRecordOf f s.blot).blot = (faultRecordOf f s).blot := by
  simp [faultRecordOf, FaultRecord.blot, State.blot, State.readMem, State.byteAt?]

theorem ignoresTimerBit_raise (f : Fault) : IgnoresTimerBit (raise f) :=
  fun s => by simpa [State.blot, raise] using faultRecordOf_blot f s

/-! ### The range checks: operand fetch, advance, CALL -/

theorem ignoresTimerBit_operandFetch (k : Nat) {go : State → State} (hgo : IgnoresTimerBit go) :
    IgnoresTimerBit fun s => operandFetch k s (go s) := by
  intro s
  by_cases h : s.pc.toNat + k ≤ 255
  · simpa only [operandFetch_inRange h, operandFetch_inRange (s := s.blot) h] using hgo s
  · have h : 255 < s.pc.toNat + k := by omega
    simpa only [operandFetch_past h, operandFetch_past (s := s.blot) h, blot_pc] using ignoresTimerBit_raise _ s

theorem ignoresTimerBit_advance (len : Nat) : IgnoresTimerBit (advance len) :=
  ignoresTimerBit_operandFetch len <|
    .param ignoresTimerBit_jumpTo (v := fun s => BitVec.ofNat 8 (s.pc.toNat + len)) fun _ => rfl

/-! ### The stack and the return from an interrupt -/

theorem ignoresTimerBit_stackPush (v : Byte) : IgnoresTimerBit (stackPush v) :=
  .param (f := fun a s => (s.writeMem a v).setReg .sp a)
    (fun a => (ignoresTimerBit_setReg .sp a).comp (ignoresTimerBit_writeMem a v)) (v := pushAddr) fun _ => rfl

theorem ignoresTimerBit_stackDrop : IgnoresTimerBit stackDrop :=
  .param (ignoresTimerBit_setReg .sp) (v := fun s => s.reg .sp + 1) fun _ => rfl

theorem ignoresTimerBit_popInto (r : Reg) : IgnoresTimerBit (popInto r) :=
  .param (f := fun v s => (stackDrop s).setReg r v)
    (fun v => (ignoresTimerBit_setReg r v).comp ignoresTimerBit_stackDrop) (v := stackTop) fun _ => rfl

/-- IRET takes IS from the frame. -/
theorem ignoresTimerBit_interruptReturn : IgnoresTimerBit interruptReturn := by
  intro s
  have hsp : s.blot.reg .sp = s.reg .sp := blot_reg_of_ne (r := .sp) nofun s
  rw [interruptReturn_eq, interruptReturn_eq]
  simp only [hsp, blot_readMem]
  simp [State.blot]

/-! ### Operations that read a register other than IS -/

section Reads

variable {a b : Reg}

theorem IgnoresTimerBit.readReg {f : Byte → State → State} (hf : ∀ x, IgnoresTimerBit (f x)) (ha : a ≠ .r6) :
    IgnoresTimerBit fun s => f (s.reg a) s := .param hf (blot_reg_of_ne ha)

theorem IgnoresTimerBit.readTwoRegs {f : Byte → Byte → State → State} (hf : ∀ x y, IgnoresTimerBit (f x y))
    (ha : a ≠ .r6) (hb : b ≠ .r6) : IgnoresTimerBit fun s => f (s.reg a) (s.reg b) s :=
  .readReg (f := fun x s => f x (s.reg b) s) (fun x => .readReg (hf x) hb) ha

theorem ignoresTimerBit_callThrough (ha : a ≠ .r6) : IgnoresTimerBit (callThrough a) :=
  ignoresTimerBit_operandFetch 2 <| IgnoresTimerBit.comp (.readReg ignoresTimerBit_jumpTo ha) <|
    .param ignoresTimerBit_stackPush (v := fun s => BitVec.ofNat 8 (s.pc.toNat + 2)) fun _ => rfl

end Reads

/-! ### The operand forms -/

section Operands

variable {r ra rb : Byte}

theorem ne_of_not_mem_operandRegs {d : Reg} (h : Reg.r6 ∉ operandRegs d.toByte) : d ≠ .r6 := by
  rintro rfl
  simp at h

theorem ignoresTimerBit_regOperand (k : Nat) (b : Byte) {go : Reg → State → State}
    (hgo : ∀ d : Reg, b = d.toByte → IgnoresTimerBit (go d)) : IgnoresTimerBit fun s => regOperand k b s (go · s) := by
  apply ignoresTimerBit_operandFetch k (go := fun s => regCheck b s (go · s))
  rcases Reg.ofByte?_cases b with ⟨d, rfl, -⟩ | ⟨hb, -⟩
  · simpa only [regCheck_toByte] using hgo d rfl
  · simpa only [regCheck_bad hb] using
      IgnoresTimerBit.param ignoresTimerBit_raise (v := fun s => .badRegisterIndex s.pc b) fun _ => rfl

theorem ignoresTimerBit_formatR {go : Reg → State → State} (hgo : ∀ d : Reg, r = d.toByte → IgnoresTimerBit (go d)) :
    IgnoresTimerBit fun s => formatR r s (go · s) := ignoresTimerBit_regOperand 1 r hgo

/-- Format R, for an instruction that reads its operand. -/
theorem ignoresTimerBit_formatR_read {go : Reg → State → State} (h : Reg.r6 ∉ operandRegs r)
    (hgo : ∀ d, d ≠ .r6 → IgnoresTimerBit (go d)) : IgnoresTimerBit fun s => formatR r s (go · s) := by
  refine ignoresTimerBit_regOperand 1 r ?_
  rintro d rfl
  exact hgo d (ne_of_not_mem_operandRegs h)

theorem ignoresTimerBit_formatRI {go : Reg → State → State} (hgo : ∀ d, IgnoresTimerBit (go d)) :
    IgnoresTimerBit fun s => formatRI r s (go · s) :=
  ignoresTimerBit_regOperand 1 r (go := fun d s => operandFetch 2 s (go d s)) fun d _ =>
    ignoresTimerBit_operandFetch 2 (hgo d)

/-- Format RR, for an instruction that reads both operands. -/
theorem ignoresTimerBit_formatRR {go : Reg → Reg → State → State} (h : Reg.r6 ∉ operandRegs ra ++ operandRegs rb)
    (hgo : ∀ a b, a ≠ .r6 → b ≠ .r6 → IgnoresTimerBit (go a b)) :
    IgnoresTimerBit fun s => formatRR ra rb s (go · · s) := by
  obtain ⟨ha, hb⟩ := not_or.1 (mt List.mem_append.2 h)
  refine ignoresTimerBit_regOperand 1 ra (go := fun a s => regOperand 2 rb s (go a · s)) ?_
  rintro a rfl
  refine ignoresTimerBit_regOperand 2 rb ?_
  rintro b rfl
  exact hgo a b (ne_of_not_mem_operandRegs ha) (ne_of_not_mem_operandRegs hb)

end Operands

/-! ### Every instruction that does not read IS -/

theorem exec_ignoresTimerBit {i : Instr} (h : Reg.r6 ∉ readRegs i) :
    ∃ f, (∀ s, exec i s = .next (f s)) ∧ IgnoresTimerBit f := by
  cases i <;> refine ⟨_, fun _ => rfl, ?_⟩
  case hlt => exact fun s => by simp [State.blot]
  case ret =>
    exact .param (fun p => (ignoresTimerBit_jumpTo p).comp ignoresTimerBit_stackDrop) (v := stackTop) fun _ => rfl
  case iret => exact ignoresTimerBit_interruptReturn
  case push =>
    exact ignoresTimerBit_formatR_read (mt (List.mem_append_left _) h) fun d hd =>
      (ignoresTimerBit_advance 2).comp (.readReg ignoresTimerBit_stackPush hd)
  case pop => exact ignoresTimerBit_formatR fun d _ => (ignoresTimerBit_advance 2).comp (ignoresTimerBit_popInto d)
  case prn =>
    exact ignoresTimerBit_formatR_read h fun d hd =>
      (ignoresTimerBit_advance 2).comp (.readReg (fun x => ignoresTimerBit_emit (.num x)) hd)
  case pra =>
    exact ignoresTimerBit_formatR_read h fun d hd =>
      (ignoresTimerBit_advance 2).comp (.readReg (fun x => ignoresTimerBit_emit (.chr x)) hd)
  case call => exact ignoresTimerBit_formatR_read (mt (List.mem_append_left _) h) fun d hd => ignoresTimerBit_callThrough hd
  case jmp => exact ignoresTimerBit_formatR_read h fun d hd => .readReg ignoresTimerBit_jumpTo hd
  case ldi r imm => exact ignoresTimerBit_formatRI fun d => (ignoresTimerBit_advance 3).comp (ignoresTimerBit_setReg d imm)
  case store =>
    exact ignoresTimerBit_formatRR h fun a b ha hb =>
      (ignoresTimerBit_advance 3).comp (.readTwoRegs ignoresTimerBit_writeMem ha hb)
  case add =>
    exact ignoresTimerBit_formatRR h fun a b ha hb =>
      (ignoresTimerBit_advance 3).comp (.readTwoRegs (fun x y => ignoresTimerBit_setReg a (aluAdd x y)) ha hb)
  case mul =>
    exact ignoresTimerBit_formatRR h fun a b ha hb =>
      (ignoresTimerBit_advance 3).comp (.readTwoRegs (fun x y => ignoresTimerBit_setReg a (aluMul x y)) ha hb)
  case cmp =>
    exact ignoresTimerBit_formatRR h fun a b ha hb =>
      (ignoresTimerBit_advance 3).comp
        (.readTwoRegs (fun x y => ignoresTimerBit_accumulateFlag (compareFlag x y)) ha hb)

/-! ### The cycle -/

@[simp] theorem timerCheck_blot (tick : Bool) (s : State) : (timerCheck tick s).blot = s.blot := by
  cases tick
  · rw [timerCheck_false]
  · simp [timerCheck_true, State.blot, Regs.blotTimerBit, State.reg_def, BitVec.or_assoc]

/-- With IM = 0 a cycle has no interrupt to take. -/
theorem beforeFetch_of_im_zero {s : State} (h : s.reg .im = 0) (tick : Bool) : beforeFetch tick s = timerCheck tick s := by
  have him : (timerCheck tick s).reg .im = s.reg .im := State.reg_setReg_of_ne (r := .is) (q := .im) nofun ..
  exact interruptCheck_nothing (by rw [him, h]; exact BitVec.zero_and)

theorem fetchExecute_blot {s s' : State} (h : s.blot = s'.blot)
    (hread : ∀ i rest, decode (fetchWindow s) = .ok i rest → Reg.r6 ∉ readRegs i) :
    ∃ t t', fetchExecute s = .next t ∧ fetchExecute s' = .next t' ∧ t.blot = t'.blot := by
  have hw : fetchWindow s' = fetchWindow s := (congrArg fetchWindow h).symm
  cases hd : decode (fetchWindow s) with
  | ok i rest =>
    obtain ⟨f, hf, hignores⟩ := exec_ignoresTimerBit (hread i rest hd)
    rw [fetchExecute_ok hd, fetchExecute_ok (hw ▸ hd)]
    exact ⟨_, _, hf s, hf s', hignores.congr h⟩
  | reject r =>
    rw [fetchExecute_reject hd, fetchExecute_reject (hw ▸ hd)]
    exact ⟨_, _, rfl, rfl, IgnoresTimerBit.congr (.param ignoresTimerBit_raise (v := faultOfReject r) fun _ => rfl) h⟩

/-- Settles O49: the timer check changes only what is blotted, no interrupt is taken, and the instruction does not read it. -/
theorem ticksTouchOnlyBitZeroOfIs : Obligations.TicksTouchOnlyBitZeroOfIs := by
  intro s s' tick tick' hs him hread
  simp only [← blot_eq_iff] at hs ⊢
  have hrun : s'.runState = s.runState := (congrArg State.runState hs).symm
  by_cases hr : s.runState = .running
  · have him' : s'.reg .im = 0 := by
      rw [← blot_reg_of_ne (r := .im) nofun, ← hs, blot_reg_of_ne (r := .im) nofun, him]
    rw [cycle_running hr, cycle_running (hrun.trans hr), beforeFetch_of_im_zero him, beforeFetch_of_im_zero him']
    exact fetchExecute_blot (by simpa using hs) hread
  · exact ⟨s, s', cycle_terminal hr tick, cycle_terminal (hrun ▸ hr) tick', hs⟩

end Sys2Proof.Machine
end

section
/-! PROOF. The instructions of format RR that advance by 3 (30_encoding.md R51; 40_execution_loop.md R77 to R80): what the operand
checks raise, and the effect with its advance, said once for every meaning of that shape; then ADD, MUL and CMP (41_alu.md). -/

namespace Sys2Proof.Machine

/-! ### At the end of memory -/

theorem regOperand_atEnd {k : Nat} {s : State} (h : s.pc.toNat + k = 256) (b : Byte) (go : Reg → State) :
    regOperand k b s go = raise (.pcOutOfBounds 256) s := by
  rw [regOperand_past (by omega), h]

theorem advance_atEnd {len : Nat} {s : State} (h : s.pc.toNat + len = 256) :
    advance len s = raise (.pcOutOfBounds 256) s := by
  rw [advance_past (by omega), h]

/-- A byte of 7 or less is a register's. -/
theorem exists_toByte_of_le {b : Byte} (h : b.toNat ≤ 7) : ∃ r : Reg, b = r.toByte :=
  (regByteOk_iff b).1 (decide_eq_true h)

/-! ### The format and its advance -/

section FormatRR

variable {mk : Byte → Byte → Instr}

/-- An instruction that goes through format RR raises that format's faults, whatever its effect. -/
theorem operandFaultsRR_of_formatRR {go : State → Reg → Reg → State}
    (hexec : ∀ ra rb s, exec (mk ra rb) s = .next (formatRR ra rb s (go s))) : OperandFaultsRR mk := by
  intro ra rb s
  rw [hexec, formatRR]
  refine ⟨fun hpc => ?_, fun hpc hra => ?_, fun hpc hra => ?_, fun hpc hra hrb => ?_⟩
  · rw [regOperand_atEnd (by omega)]
  · rw [regOperand_bad (by omega) hra]
  · obtain ⟨a, rfl⟩ := exists_toByte_of_le hra
    rw [regOperand_toByte (by omega), regOperand_atEnd (by omega)]
  · obtain ⟨a, rfl⟩ := exists_toByte_of_le hra
    rw [regOperand_toByte (by omega), regOperand_bad (by omega) hrb]

/-- With both operands registers the effect is had; then the advance moves `pc`, or faults at address 253 with the effect kept. -/
theorem exec_formatRR_advance {effect : Reg → Reg → State → State} {a b : Reg} {s : State}
    (hexec : ∀ ra rb s, exec (mk ra rb) s = .next (formatRR ra rb s fun a b => advance 3 (effect a b s)))
    (hkeeps : (effect a b s).pc = s.pc) :
    (s.pc.toNat ≤ 252 → exec (mk a.toByte b.toByte) s = .next { effect a b s with pc := s.pc + 3 }) ∧
    (s.pc.toNat = 253 → exec (mk a.toByte b.toByte) s = .next (raise (.pcOutOfBounds 256) (effect a b s))) := by
  constructor <;> intro hpc <;> rw [hexec, formatRR_toByte (by omega)]
  · rw [advance_inRange (by rw [hkeeps]; omega), hkeeps]
    rfl
  · rw [advance_atEnd (by rw [hkeeps, hpc])]

end FormatRR

/-! ### The ALU's results (41_alu.md R91 to R93, R96) -/

theorem aluAdd_toNat (a b : Byte) : (aluAdd a b).toNat = (a.toNat + b.toNat) % 256 := BitVec.toNat_ofNat ..

theorem aluMul_toNat (a b : Byte) : (aluMul a b).toNat = (a.toNat * b.toNat) % 256 := BitVec.toNat_ofNat ..

section Compare

variable {a b : Byte}

theorem compareFlag_of_gt (h : b.toNat < a.toNat) : compareFlag a b = 0x01 := if_pos h

theorem compareFlag_of_eq (h : a.toNat = b.toNat) : compareFlag a b = 0x02 :=
  (if_neg h.not_gt).trans (if_pos (BitVec.eq_of_toNat_eq h))

theorem compareFlag_of_lt (h : a.toNat < b.toNat) : compareFlag a b = 0x04 :=
  (if_neg h.not_gt).trans (if_neg fun hab => h.ne (congrArg BitVec.toNat hab))

end Compare

/-! ### ADD, MUL and CMP -/

section Meanings

variable (ra rb : Byte) (s : State)

theorem exec_add : exec (.add ra rb) s =
    .next (formatRR ra rb s fun a b => advance 3 (s.setReg a (aluAdd (s.reg a) (s.reg b)))) := rfl

theorem exec_mul : exec (.mul ra rb) s =
    .next (formatRR ra rb s fun a b => advance 3 (s.setReg a (aluMul (s.reg a) (s.reg b)))) := rfl

theorem exec_cmp : exec (.cmp ra rb) s =
    .next (formatRR ra rb s fun a b => advance 3 (accumulateFlag (compareFlag (s.reg a) (s.reg b)) s)) := rfl

end Meanings

/-- Settles O18: ADD is format RR with the sum as its effect. -/
theorem addIsModulo256 : Obligations.AddIsModulo256 :=
  ⟨fun _ _ => rfl, operandFaultsRR_of_formatRR exec_add, fun a b s =>
    ⟨aluAdd (s.reg a) (s.reg b), aluAdd_toNat .., exec_formatRR_advance exec_add (setReg_pc ..)⟩⟩

/-- Settles O19: MUL is format RR with the product as its effect. -/
theorem mulIsModulo256 : Obligations.MulIsModulo256 :=
  ⟨fun _ _ => rfl, operandFaultsRR_of_formatRR exec_mul, fun a b s =>
    ⟨aluMul (s.reg a) (s.reg b), aluMul_toNat .., exec_formatRR_advance exec_mul (setReg_pc ..)⟩⟩

/-- Settles O20: CMP is format RR with the comparison's bit ORed into FL as its effect. -/
theorem cmpAccumulatesOneFlag : Obligations.CmpAccumulatesOneFlag :=
  ⟨fun _ _ => rfl, operandFaultsRR_of_formatRR exec_cmp, fun a b s =>
    ⟨compareFlag (s.reg a) (s.reg b), compareFlag_of_gt, compareFlag_of_eq, compareFlag_of_lt,
      exec_formatRR_advance exec_cmp (accumulateFlag_pc ..)⟩⟩

end Sys2Proof.Machine
end

section
/-! PROOF. LDI, PRN, PRA and STORE (42_data_movement_output.md R100 to R103): what formats R and RI raise, and their effect with
its advance, said once for every meaning of that shape, as above for format RR. -/

namespace Sys2Proof.Machine

/-! ### Formats R and RI -/

/-- An instruction that goes through format R raises that format's faults, whatever its effect. -/
theorem operandFaultsR_of_formatR {mk : Byte → Instr} {go : State → Reg → State}
    (hexec : ∀ r s, exec (mk r) s = .next (formatR r s (go s))) : OperandFaultsR mk := by
  intro r s
  rw [hexec, formatR]
  refine ⟨fun hpc => ?_, fun hpc hr => ?_⟩
  · rw [regOperand_atEnd (by omega)]
  · rw [regOperand_bad (by omega) hr]

/-- An instruction that goes through format RI raises that format's faults, whatever its effect. -/
theorem operandFaultsRI_of_formatRI {mk : Byte → Byte → Instr} {go : Byte → State → Reg → State}
    (hexec : ∀ r imm s, exec (mk r imm) s = .next (formatRI r s (go imm s))) : OperandFaultsRI mk := by
  intro r imm s
  rw [hexec, formatRI]
  refine ⟨fun hpc => ?_, fun hpc hr => ?_, fun hpc hr => ?_⟩
  · rw [regOperand_atEnd (by omega)]
  · rw [regOperand_bad (by omega) hr]
  · obtain ⟨d, rfl⟩ := exists_toByte_of_le hr
    rw [regOperand_toByte (by omega), operandFetch_past (by omega), hpc]

/-- An instruction of `len` bytes that has had its effect and kept `pc`: up to the last address where its bytes and its successor
fit, the advance moves `pc`; one address further the advance faults with the effect kept. -/
theorem next_advance {o : Host.Outcome State Fault Refusal} {s t : State} {len last : Nat} (hlast : last + len = 255)
    (hkeeps : t.pc = s.pc) (ho : s.pc.toNat ≤ last + 1 → o = .next (advance len t)) :
    (s.pc.toNat ≤ last → o = .next { t with pc := s.pc + BitVec.ofNat 8 len }) ∧
    (s.pc.toNat = last + 1 → o = .next (raise (.pcOutOfBounds 256) t)) := by
  rw [← hkeeps] at ho ⊢
  refine ⟨fun hpc => ?_, fun hpc => ?_⟩
  · rw [ho (by omega), advance_inRange (by omega)]
  · rw [ho (by omega), advance_atEnd (by omega)]

/-- With the operand a register the effect is had; then the advance moves `pc`, or faults at address 254 with the effect kept. -/
theorem exec_formatR_advance {mk : Byte → Instr} {effect : Reg → State → State} {r : Reg} {s : State}
    (hexec : ∀ r s, exec (mk r) s = .next (formatR r s fun d => advance 2 (effect d s)))
    (hkeeps : (effect r s).pc = s.pc) :
    (s.pc.toNat ≤ 253 → exec (mk r.toByte) s = .next { effect r s with pc := s.pc + 2 }) ∧
    (s.pc.toNat = 254 → exec (mk r.toByte) s = .next (raise (.pcOutOfBounds 256) (effect r s))) :=
  next_advance (last := 253) rfl hkeeps fun hpc => by rw [hexec, formatR_toByte (by omega)]

/-- As `exec_formatR_advance`, with an immediate and one byte more: the advance faults at address 253. -/
theorem exec_formatRI_advance {mk : Byte → Byte → Instr} {effect : Reg → Byte → State → State} {r : Reg} {imm : Byte}
    {s : State} (hexec : ∀ r imm s, exec (mk r imm) s = .next (formatRI r s fun d => advance 3 (effect d imm s)))
    (hkeeps : (effect r imm s).pc = s.pc) :
    (s.pc.toNat ≤ 252 → exec (mk r.toByte imm) s = .next { effect r imm s with pc := s.pc + 3 }) ∧
    (s.pc.toNat = 253 → exec (mk r.toByte imm) s = .next (raise (.pcOutOfBounds 256) (effect r imm s))) :=
  next_advance (last := 252) rfl hkeeps fun hpc => by rw [hexec, formatRI_toByte (by omega)]

/-! ### LDI, PRN, PRA and STORE -/

section Meanings

variable (r ra rb imm : Byte) (s : State)

theorem exec_ldi : exec (.ldi r imm) s = .next (formatRI r s fun d => advance 3 (s.setReg d imm)) := rfl

theorem exec_prn : exec (.prn r) s = .next (formatR r s fun d => advance 2 (emit (.num (s.reg d)) s)) := rfl

theorem exec_pra : exec (.pra r) s = .next (formatR r s fun d => advance 2 (emit (.chr (s.reg d)) s)) := rfl

theorem exec_store : exec (.store ra rb) s =
    .next (formatRR ra rb s fun a b => advance 3 (s.writeMem (s.reg a) (s.reg b))) := rfl

end Meanings

/-- Settles O12: PRN is format R with a number's event as its effect. -/
theorem prnEmitsNumber : Obligations.PrnEmitsNumber :=
  ⟨fun _ => rfl, operandFaultsR_of_formatR exec_prn, fun _ _ => exec_formatR_advance exec_prn (emit_pc ..)⟩

/-- Settles O13: PRA is format R with a character's event as its effect. -/
theorem praEmitsCharacter : Obligations.PraEmitsCharacter :=
  ⟨fun _ => rfl, operandFaultsR_of_formatR exec_pra, fun _ _ => exec_formatR_advance exec_pra (emit_pc ..)⟩

/-- Settles O16: LDI is format RI with the write of its immediate as its effect. -/
theorem ldiLoadsImmediate : Obligations.LdiLoadsImmediate :=
  ⟨fun _ _ => rfl, operandFaultsRI_of_formatRI exec_ldi, fun _ _ _ => exec_formatRI_advance exec_ldi (setReg_pc ..)⟩

/-- Settles O17: STORE is format RR with one write to memory as its effect. -/
theorem storeWritesAddressedByte : Obligations.StoreWritesAddressedByte :=
  ⟨fun _ _ => rfl, operandFaultsRR_of_formatRR exec_store, fun _ _ _ =>
    exec_formatRR_advance exec_store (writeMem_pc ..)⟩

/-- Settles O29: LDI leaves `pc` at 253 or below, so that PRN completes, and the register with the value PRN reads. -/
theorem ldiThenPrnEmitsTheValue : Obligations.LdiThenPrnEmitsTheValue := by
  obtain ⟨-, -, hldi⟩ := ldiLoadsImmediate
  obtain ⟨-, -, hprn⟩ := prnEmitsNumber
  intro r v s hpc
  have hpc' : (s.pc + 3).toNat ≤ 253 := by bv_omega
  refine ⟨_, _, (hldi r v s).1 (by omega), (hprn r _).1 hpc', ?_⟩
  simp [State.reg_def]

end Sys2Proof.Machine
end

section
/-! PROOF. The text of an event (42_data_movement_output.md R104): the decimal digits of a number below 1000. -/

namespace Sys2Proof.Machine

/-- Read most significant first, the digits give the number. -/
theorem decimalDigits_foldl (n : Nat) : (decimalDigits n).foldl (fun m d => 10 * m + d) 0 = n := by
  unfold decimalDigits
  split_ifs <;> simp only [List.foldl] <;> omega

theorem decimalDigits_le {n : Nat} (h : n < 1000) : ∀ d ∈ decimalDigits n, d ≤ 9 := by
  unfold decimalDigits
  split_ifs <;> simp only [List.forall_mem_cons, List.not_mem_nil, false_imp_iff, implies_true, and_true] <;> omega

theorem decimalDigits_ne_nil (n : Nat) : decimalDigits n ≠ [] := by
  unfold decimalDigits
  split_ifs <;> exact List.cons_ne_nil _ _

/-- No leading zero: only the number 0 begins with the digit 0. -/
theorem eq_zero_of_decimalDigits_head? {n : Nat} (h : (decimalDigits n).head? = some 0) : n = 0 := by
  unfold decimalDigits at h
  split_ifs at h <;> simp only [List.head?_cons, Option.some.injEq] at h <;> omega

/-- Settles O30: the digits are those of `decimalDigits`; a byte is below 1000, and the number 0 has one digit. -/
theorem textRenderingOfEvents : Obligations.TextRenderingOfEvents := by
  refine ⟨fun v => ⟨decimalDigits v.toNat, rfl, decimalDigits_foldl _, decimalDigits_le (by omega),
    decimalDigits_ne_nil _, fun hzero => ?_⟩, fun _ => rfl⟩
  have hv : v.toNat = 0 := eq_zero_of_decimalDigits_head? hzero
  exact ⟨BitVec.eq_of_toNat_eq hv, by rw [hv]; rfl⟩

end Sys2Proof.Machine
end

section
/-! PROOF. JMP, CALL and RET (43_control_flow.md R110 to R112): their meanings with the operand a register, and that a pop takes
back what a push put on the stack. -/

namespace Sys2Proof.Machine

/-! ### JMP, CALL and RET -/

section Meanings

variable (r : Byte) (d : Reg) (s : State)

theorem exec_ret : exec .ret s = .next (jumpTo (stackTop s) (stackDrop s)) := rfl

theorem exec_jmp : exec (.jmp r) s = .next (formatR r s fun d => jumpTo (s.reg d) s) := rfl

theorem exec_call : exec (.call r) s = .next (formatR r s fun d => callThrough d s) := rfl

end Meanings

section CallThrough

variable {s : State} (d : Reg)

/-- CALL at address 253 or below pushes the address after it and goes to the target, read after the push. -/
theorem callThrough_inRange (h : s.pc.toNat + 2 ≤ 255) :
    callThrough d s = jumpTo ((stackPush (s.pc + 2) s).reg d) (stackPush (s.pc + 2) s) := by
  have hret : BitVec.ofNat 8 (s.pc.toNat + 2) = s.pc + 2 := by bv_omega
  rw [callThrough, if_pos h, hret]

/-- CALL at address 254 has no address after it: it faults and pushes nothing. -/
theorem callThrough_atEnd (h : s.pc.toNat + 2 = 256) : callThrough d s = raise (.pcOutOfBounds 256) s := by
  rw [callThrough, if_neg (by omega), h]

/-- The completed CALL: both operand and return address lie in memory. -/
theorem exec_call_inRange (h : s.pc.toNat ≤ 253) : exec (.call d.toByte) s =
    .next (jumpTo ((stackPush (s.pc + 2) s).reg d) (stackPush (s.pc + 2) s)) := by
  rw [exec_call, formatR_toByte (by omega), callThrough_inRange d (by omega)]

end CallThrough

/-! ### A push, then a pop (44_stack.md R120, R121) -/

section PushThenPop

variable (v : Byte) (s : State)

theorem stackPush_reg_eq_ite (r : Reg) :
    (stackPush v s).reg r = if r = .r7 then s.reg .r7 - 1 else s.reg r := State.reg_setReg ..

@[simp] theorem stackTop_stackPush : stackTop (stackPush v s) = v := by
  rw [stackTop, stackPush_sp, stackPush_readMem, if_pos rfl]

@[simp] theorem stackDrop_stackPush_regs : (stackDrop (stackPush v s)).regs = s.regs := by
  refine Regs.ext_get fun r => ?_
  simp only [← State.reg_def]
  by_cases hr : r = .r7
  · rw [hr, stackDrop_sp, stackPush_sp, BitVec.sub_add_cancel]
  · rw [stackDrop_reg hr, stackPush_reg hr]

end PushThenPop

/-! ### The obligations -/

/-- Settles O28: RET pops the return address CALL pushed, and CALL's jump leaves the stack alone. -/
theorem callThenRetReturns : Obligations.CallThenRetReturns := fun r s hpc =>
  ⟨_, _, exec_call_inRange r hpc, exec_ret _, stackTop_stackPush (s.pc + 2) s, stackDrop_stackPush_regs (s.pc + 2) s⟩

/-- Settles O8: RET jumps to the byte a pop returns. -/
theorem retPopsIntoPc : Obligations.RetPopsIntoPc := ⟨rfl, exec_ret⟩

/-- Settles O14: CALL is format R with the push and the jump as its effect; only SP can be a target the push has changed. -/
theorem callPushesReturnAddress : Obligations.CallPushesReturnAddress := by
  refine ⟨fun _ => rfl, operandFaultsR_of_formatR exec_call, fun r s => ⟨fun hpc => ?_, fun hpc => ?_⟩⟩
  · rw [exec_call_inRange r hpc, stackPush_reg_eq_ite]
    rfl
  · rw [exec_call, formatR_toByte (by omega), callThrough_atEnd r (by omega)]

/-- Settles O15: JMP is format R with the jump as its effect; there is no advance to fault. -/
theorem jmpGoesToRegister : Obligations.JmpGoesToRegister := by
  refine ⟨fun _ => rfl, operandFaultsR_of_formatR exec_jmp, fun r s hpc => ?_⟩
  rw [exec_jmp, formatR_toByte (by omega)]
  rfl

end Sys2Proof.Machine
end

section
/-! PROOF. The stack (44_stack.md R120 to R125): PUSH and POP, one push and one pop, and that pops take back what pushes put. -/

namespace Sys2Proof.Machine

/-! ### The same stack -/

/-- SP is the same, and so are the `n` bytes from the one at SP on. -/
def SameStack (n : Nat) (s u : State) : Prop :=
  u.reg .r7 = s.reg .r7 ∧
    ∀ k < n, u.readMem (s.reg .r7 + BitVec.ofNat 8 k) = s.readMem (s.reg .r7 + BitVec.ofNat 8 k)

section SameStack

variable {n : Nat} {s u : State}

/-- The byte at SP is the first of the same bytes. -/
theorem SameStack.stackTop_eq (h : SameStack (n + 1) s u) : stackTop u = stackTop s := by
  obtain ⟨hsp, hbytes⟩ := h
  rw [stackTop, stackTop, hsp]
  simpa using hbytes 0 n.succ_pos

/-- A pop from the stack a push has left gives the stack from before the push. At most 255 bytes lie above the pushed one, so that
none of them has its address. -/
theorem SameStack.stackDrop_of_stackPush {v : Byte} (hn : n ≤ 255) (h : SameStack (n + 1) (stackPush v s) u) :
    SameStack n s (stackDrop u) := by
  obtain ⟨hsp, hbytes⟩ := h
  rw [stackPush_sp] at hsp hbytes
  refine ⟨by rw [stackDrop_sp, hsp, BitVec.sub_add_cancel], fun k hk => ?_⟩
  have haddr : s.reg .r7 - 1 + BitVec.ofNat 8 (k + 1) = s.reg .r7 + BitVec.ofNat 8 k := by bv_omega
  have hne : s.reg .r7 + BitVec.ofNat 8 k ≠ pushAddr s := by
    show _ ≠ s.reg .r7 - 1
    bv_omega
  rw [stackDrop_readMem, ← stackPush_readMem_of_ne hne v, ← haddr, hbytes (k + 1) (by omega)]

end SameStack

/-! ### Sequences of pushes and pops (44_stack.md R125) -/

theorem pushMany_concat (vs : List Byte) (v : Byte) (s : State) :
    pushMany (vs ++ [v]) s = stackPush v (pushMany vs s) := List.foldl_concat ..

theorem popMany_succ (n : Nat) (s : State) :
    popMany (n + 1) s = (stackTop s :: (popMany n (stackDrop s)).1, (popMany n (stackDrop s)).2) := rfl

/-- By induction on the pushes, the last one first: the first pop takes it back, the others find the stack from before it. -/
theorem SameStack.popMany_pushMany {vs : List Byte} {s u : State} (hlen : vs.length ≤ 256)
    (h : SameStack vs.length (pushMany vs s) u) :
    (popMany vs.length u).1 = vs.reverse ∧ (popMany vs.length u).2.reg .r7 = s.reg .r7 := by
  induction vs using List.reverseRecOn generalizing u with
  | nil => exact ⟨rfl, h.1⟩
  | append_singleton vs v ih =>
    rw [List.length_append, List.length_singleton] at hlen h ⊢
    rw [pushMany_concat] at h
    obtain ⟨hvals, hsp⟩ := ih (by omega) (h.stackDrop_of_stackPush (by omega))
    rw [popMany_succ, h.stackTop_eq, stackTop_stackPush, hvals, List.reverse_concat]
    exact ⟨rfl, hsp⟩

/-! ### PUSH and POP (44_stack.md R122, R123) -/

section Meanings

variable (r : Byte) (s : State)

theorem exec_push : exec (.push r) s = .next (formatR r s fun d => advance 2 (pushReg s d)) := rfl

theorem exec_pop : exec (.pop r) s = .next (formatR r s fun d => advance 2 (popInto d s)) := rfl

end Meanings

@[simp] theorem pushReg_pc (r : Reg) (s : State) : (pushReg s r).pc = s.pc := rfl

@[simp] theorem popInto_pc (r : Reg) (s : State) : (popInto r s).pc = s.pc := rfl

/-! ### The obligations -/

/-- Settles O27: the hypotheses say that the state popped from has the stack the pushes left. -/
theorem stackIsLastInFirstOut : Obligations.StackIsLastInFirstOut :=
  fun _ _ _ hlen hsp hbytes => SameStack.popMany_pushMany hlen ⟨hsp, hbytes⟩

/-- Settles O10: PUSH is format R with the push of a register as its effect. -/
theorem pushStoresRegisterBelowSp : Obligations.PushStoresRegisterBelowSp :=
  ⟨fun _ => rfl, operandFaultsR_of_formatR exec_push, fun _ _ => exec_formatR_advance exec_push (pushReg_pc ..)⟩

/-- Settles O11: POP is format R with the pop into a register as its effect. -/
theorem popLoadsRegisterFromSp : Obligations.PopLoadsRegisterFromSp :=
  ⟨fun _ => rfl, operandFaultsR_of_formatR exec_pop, fun _ _ => exec_formatR_advance exec_pop (popInto_pc ..)⟩

/-- Settles O25: a push is one write to memory and one to SP. -/
theorem stackPushWritesBelowSp : Obligations.StackPushWritesBelowSp := fun v s =>
  ⟨stackPush_sp v s, State.readMem_writeMem_same s (s.reg .r7 - 1) v, fun _ ha => stackPush_readMem_of_ne ha v,
    fun _ hr => stackPush_reg hr v s, stackPush_eq v s⟩

/-- Settles O26: a pop is one write to SP. -/
theorem stackPopReadsAtSp : Obligations.StackPopReadsAtSp := fun s => ⟨rfl, stackDrop_eq s⟩

end Sys2Proof.Machine
end

section
/-! PROOF. The interrupt check (60_exceptions.md R138): the arbiter answers the lowest index enabled and pending. -/

namespace Sys2Proof.Machine

theorem scanOrder_eq_finRange : scanOrder = List.finRange 8 := by decide

/-- The scan rises, so nothing before the lowest enabled pending index can stop it. -/
theorem arbiter_eq_some {s : State} {i : Fin 8} (hi : (s.reg .im &&& s.reg .is).getLsbD i.val = true)
    (hlow : ∀ j : Fin 8, j < i → (s.reg .im &&& s.reg .is).getLsbD j.val = false) : arbiter s = some i := by
  simp only [arbiter, enabled_and_pending]
  rw [scanOrder_eq_finRange, List.find?_eq_some_iff_getElem]
  refine ⟨hi, i.val, by simp, by simp, fun j hj => ?_⟩
  simpa only [List.getElem_finRange, Fin.cast_mk, Bool.not_eq_eq_eq_not, Bool.not_true] using hlow ⟨j, hj.trans i.isLt⟩ hj

theorem interruptCheck_entry {s : State} {i : Fin 8} (hidle : s.irqState = .idle) (hi : arbiter s = some i) :
    interruptCheck s = interruptEntry i s := by
  simp [interruptCheck, hidle, hi]

/-- Settles O43: the three clauses are the three things the check can do. -/
theorem arbiterTakesTheLowestEnabledPending : Obligations.ArbiterTakesTheLowestEnabledPending := fun _ =>
  ⟨fun hidle _ hi hlow => interruptCheck_entry hidle (arbiter_eq_some hi hlow), interruptCheck_nothing,
    interruptCheck_servicing⟩

end Sys2Proof.Machine
end

section
/-! PROOF. Interrupt entry (60_exceptions.md R140, R141): the frame as a list of bytes with their distances below SP, and what
reads give after its bytes are written. -/

namespace Sys2Proof.Machine

/-! ### Writing a list of bytes below an address -/

/-- Write each byte at its distance below `base`, in the list's order. -/
def Memory.writeBelow (base : Byte) (cells : List (Byte × Byte)) (m : Memory) : Memory :=
  cells.foldl (fun m c => Memory.write m (base - c.1) c.2) m

theorem Memory.read_writeBelow_of_ne {base a : Byte} {cells : List (Byte × Byte)} (h : ∀ c ∈ cells, a ≠ base - c.1)
    (m : Memory) : Memory.read (Memory.writeBelow base cells m) a = Memory.read m a := by
  induction cells generalizing m with
  | nil => rfl
  | cons c cells ih =>
    obtain ⟨hc, hcells⟩ := List.forall_mem_cons.mp h
    exact (ih hcells _).trans (Memory.read_write_of_ne hc m c.2)

/-- With distinct distances no byte is overwritten by a later one. -/
theorem Memory.read_writeBelow {base : Byte} {cells : List (Byte × Byte)} (hd : (cells.map Prod.fst).Nodup)
    (m : Memory) : ∀ c ∈ cells, Memory.read (Memory.writeBelow base cells m) (base - c.1) = c.2 := by
  induction cells generalizing m with
  | nil => exact nofun
  | cons c cells ih =>
    obtain ⟨hc, hcells⟩ := List.nodup_cons.mp hd
    refine List.forall_mem_cons.mpr ⟨?_, ih hcells _⟩
    have hne : ∀ d ∈ cells, base - c.1 ≠ base - d.1 := fun d hdmem heq =>
      hc (List.mem_map.mpr ⟨d, hdmem, ((BitVec.sub_right_inj base).mp heq).symm⟩)
    exact (Memory.read_writeBelow_of_ne hne _).trans (Memory.read_write_same m _ c.2)

/-! ### The saved frame -/

/-- The eight bytes an entry to interrupt `i` saves, each with its distance below the SP it finds. -/
def entryFrame (i : Fin 8) (s : State) : List (Byte × Byte) :=
  [(1, s.pc), (2, s.reg .r0), (3, s.reg .r1), (4, s.reg .r2), (5, s.reg .r3), (6, s.reg .r4), (7, s.reg .r5),
    (8, s.reg .is &&& ~~~ bitMask i)]

section Entry

variable (i : Fin 8) (s : State)

theorem entryFrame_distances : (entryFrame i s).map Prod.fst = [1, 2, 3, 4, 5, 6, 7, 8] := rfl

theorem interruptEntry_mem : (interruptEntry i s).mem = Memory.writeBelow (s.reg .sp) (entryFrame i s) s.mem :=
  congrArg State.mem (saveContext_eq i s)

theorem interruptEntry_pc : (interruptEntry i s).pc = (interruptEntry i s).readMem (vectorAddr i) := rfl

@[simp] theorem interruptEntry_sp : (interruptEntry i s).reg .sp = s.reg .sp - 8 := by
  rw [State.reg_def, interruptEntry_regs, Regs.get_set_same]

/-- The frame reads back below the SP from before the entry. -/
theorem interruptEntry_readMem_frame :
    ∀ c ∈ entryFrame i s, (interruptEntry i s).readMem (s.reg .sp - c.1) = c.2 := by
  intro c hc
  rw [State.readMem_def, interruptEntry_mem]
  exact Memory.read_writeBelow (by rw [entryFrame_distances]; decide) s.mem c hc

/-- No byte outside the frame is written. -/
theorem interruptEntry_readMem_of_ne {a : Byte} (h : ∀ c ∈ entryFrame i s, a ≠ s.reg .sp - c.1) :
    (interruptEntry i s).readMem a = s.readMem a := by
  rw [State.readMem_def, interruptEntry_mem, Memory.read_writeBelow_of_ne h, State.readMem_def]

/-- Every distance of the frame is a number from 1 to 8. -/
theorem entryFrame_distance {c : Byte × Byte} (h : c ∈ entryFrame i s) : 1 ≤ c.1.toNat ∧ c.1.toNat ≤ 8 := by
  have hall : ∀ d ∈ ([1, 2, 3, 4, 5, 6, 7, 8] : List Byte), 1 ≤ d.toNat ∧ d.toNat ≤ 8 := by decide
  exact hall c.1 (entryFrame_distances i s ▸ List.mem_map_of_mem h)

end Entry

/-- Settles O44: the frame's bytes, the bytes outside it, and the other fields one by one. -/
theorem interruptEntrySavesTheContext : Obligations.InterruptEntrySavesTheContext := by
  intro i s t sp is
  have hframe := interruptEntry_readMem_frame i s
  simp only [entryFrame, List.forall_mem_cons] at hframe
  obtain ⟨hpc, h0, h1, h2, h3, h4, h5, h6, -⟩ := hframe
  refine ⟨hpc, h0, h1, h2, h3, h4, h5, h6, fun a ha => ?_, interruptEntry_regs i s, interruptEntry_pc i s,
    interruptEntry_irqState i s, ?_⟩
  · refine interruptEntry_readMem_of_ne i s fun c hc => ?_
    obtain ⟨hlow, hhigh⟩ := entryFrame_distance i s hc
    simpa using ha c.1.toNat hlow hhigh
  · rw [interruptEntry_irqState]
    exact interruptEntry_frame i s

end Sys2Proof.Machine
end

section
/-! PROOF. IRET (60_exceptions.md R142 to R146): what it restores, that it takes back an entry's frame, and that it overwrites the
timer's bit of its own cycle. -/

namespace Sys2Proof.Machine

variable {s u : State}

theorem exec_iret (s : State) : exec .iret s = .next (interruptReturn s) := rfl

/-- Settles O9: the eight pops as one update. -/
theorem iretRestoresTheFrame : Obligations.IretRestoresTheFrame :=
  ⟨rfl, fun s => congrArg Host.Outcome.next (interruptReturn_eq s)⟩

/-! ### After an entry -/

/-- A state with the stack an entry left holds the entry's frame above its own SP. -/
theorem SameStack.readMem_entryFrame {i : Fin 8} (h : SameStack 8 (interruptEntry i s) u) :
    ∀ c ∈ entryFrame i s, u.readMem (u.reg .sp + (8 - c.1)) = c.2 := by
  intro c hc
  obtain ⟨hsp, hbytes⟩ := h
  obtain ⟨hlow, hhigh⟩ := entryFrame_distance i s hc
  have hk : BitVec.ofNat 8 (8 - c.1.toNat) = 8 - c.1 := by bv_omega
  have haddr : s.reg .sp - 8 + (8 - c.1) = s.reg .sp - c.1 := by bv_omega
  have hbyte := hbytes (8 - c.1.toNat) (by omega)
  rw [hk, ← hsp] at hbyte
  rw [hbyte, hsp, interruptEntry_sp, haddr, interruptEntry_readMem_frame i s c hc]

/-- IRET undoes an entry, but for the cleared bit of IS, whatever else the handler has changed. -/
theorem SameStack.interruptReturn_of_entry {i : Fin 8} (h : SameStack 8 (interruptEntry i s) u) :
    interruptReturn u = { u with
      regs := s.regs.set .is (s.reg .is &&& ~~~ bitMask i), pc := s.pc, irqState := .idle } := by
  have hframe := h.readMem_entryFrame
  simp only [entryFrame, List.forall_mem_cons, BitVec.reduceSub, BitVec.add_zero] at hframe
  obtain ⟨hpc, h0, h1, h2, h3, h4, h5, h6, -⟩ := hframe
  have hsp : u.reg .sp + 8 = s.reg .sp := by rw [h.1, interruptEntry_sp, BitVec.sub_add_cancel]
  rw [interruptReturn_eq, hsp]
  simp only [BitVec.ofNat_eq_ofNat, hpc, h0, h1, h2, h3, h4, h5, h6]
  rfl

/-- Settles O45: the hypotheses say that the handler left the stack as the entry did. -/
theorem entryThenIretRestoresTheContext : Obligations.EntryThenIretRestoresTheContext := fun _ _ _ hsp hbytes =>
  congrArg Host.Outcome.next
    (SameStack.interruptReturn_of_entry ⟨hsp, fun k hk => hsp ▸ hbytes ⟨k, hk⟩⟩)

/-! ### In the cycle of a tick -/

/-- IRET pops IS, so what IS held before is lost. -/
@[simp] theorem interruptReturn_setReg_is (s : State) (v : Byte) : interruptReturn (s.setReg .is v) = interruptReturn s := by
  simp [interruptReturn_eq]

theorem decode_fetchWindow_iret (h : s.readMem s.pc = Op.code .iret) :
    decode (fetchWindow s) = .ok .iret ((s.byteAt? 1).toList ++ (s.byteAt? 2).toList) := by
  rw [fetchWindow, h, decode_code]
  rfl

theorem beforeFetch_servicing (h : s.irqState = .servicing) (tick : Bool) : beforeFetch tick s = timerCheck tick s :=
  interruptCheck_servicing h

/-- While SERVICING, an IRET's cycle is the interrupt return, tick or not. -/
theorem cycle_iret_servicing (hrun : s.runState = .running) (hirq : s.irqState = .servicing)
    (hop : s.readMem s.pc = Op.code .iret) (tick : Bool) : cycle tick s = .next (interruptReturn s) := by
  have hd := decode_fetchWindow_iret (s := timerCheck tick s) hop
  rw [cycle_running hrun, beforeFetch_servicing hirq, fetchExecute_ok hd, exec_iret, timerCheck,
    interruptReturn_setReg_is]

/-- Settles O46: both cycles are the same interrupt return. -/
theorem tickInTheIretCycleIsLost : Obligations.TickInTheIretCycleIsLost := fun _ hrun hirq hop =>
  (cycle_iret_servicing hrun hirq hop true).trans (cycle_iret_servicing hrun hirq hop false).symm

end Sys2Proof.Machine
end

section
/-! PROOF. The controller's two transitions (60_exceptions.md R139): what steps 3 to 6 of a cycle do to it, and what a whole cycle
does. -/

namespace Sys2Proof.Machine

variable {s t : State}

theorem op_eq_iret_iff (i : Instr) : i.op = .iret ↔ i = .iret := by
  cases i <;> simp [Instr.op]

/-- All that steps 3 to 6 of a cycle can do to the controller: nothing, or make it IDLE by an IRET. -/
theorem fetchExecute_irqState_cases (h : fetchExecute s = .next t) :
    t.irqState = s.irqState ∨ (t.irqState = .idle ∧ ∃ rest, decode (fetchWindow s) = .ok .iret rest) := by
  cases hd : decode (fetchWindow s) with
  | reject r =>
    rw [fetchExecute_reject hd] at h
    cases h
    exact .inl rfl
  | ok i rest =>
    rw [fetchExecute_ok hd] at h
    by_cases hi : i.op = .iret
    · obtain rfl := (op_eq_iret_iff i).mp hi
      cases h
      exact .inr ⟨interruptReturn_irqState s, rest, rfl⟩
    · exact .inl (exec_irqState_eq h hi)

/-- A cycle that moves the controller is a cycle of a RUNNING state. -/
theorem fetchExecute_of_irqState_ne {tick : Bool} (h : cycle tick s = .next t) (hne : t.irqState ≠ s.irqState) :
    fetchExecute (beforeFetch tick s) = .next t := by
  by_cases hr : s.runState = .running
  · rwa [cycle_running hr] at h
  · rw [cycle_terminal hr] at h
    cases h
    exact absurd rfl hne

/-- SERVICING is left only by an IRET. -/
theorem decode_iret_of_servicing_to_idle {tick : Bool} (h : cycle tick s = .next t) (hs : s.irqState = .servicing)
    (ht : t.irqState = .idle) : ∃ rest, decode (fetchWindow (timerCheck tick s)) = .ok .iret rest := by
  have hfetch := fetchExecute_of_irqState_ne h (by simp [hs, ht])
  rw [beforeFetch_servicing hs] at hfetch
  rcases fetchExecute_irqState_cases hfetch with hkeep | ⟨-, hiret⟩
  · simp [hs, ht] at hkeep
  · exact hiret

/-- SERVICING is reached only by the entry the interrupt check makes. -/
theorem entry_of_idle_to_servicing {tick : Bool} (h : cycle tick s = .next t) (hs : s.irqState = .idle)
    (ht : t.irqState = .servicing) :
    ∃ i, arbiter (timerCheck tick s) = some i ∧
      interruptCheck (timerCheck tick s) = interruptEntry i (timerCheck tick s) := by
  rcases interruptCheck_cases (timerCheck tick s) with hnone | ⟨i, -, hi, hentry⟩
  · have hfetch := fetchExecute_of_irqState_ne h (by simp [hs, ht])
    rw [beforeFetch, hnone] at hfetch
    rcases fetchExecute_irqState_cases hfetch with hkeep | ⟨hidle, -⟩
    · simp [hs, ht] at hkeep
    · simp [ht] at hidle
  · exact ⟨i, hi, hentry⟩

/-- Settles O47: the two transitions, then the two ways a cycle can move the controller. -/
theorem onlyEntryAndIretMoveTheController : Obligations.OnlyEntryAndIretMoveTheController := by
  refine ⟨interruptEntry_irqState, fun s => ⟨_, exec_iret s, interruptReturn_irqState s⟩,
    fun s hs => ⟨interruptCheck_servicing hs, State.reg_setReg_same ..⟩,
    fun tick s t h => ⟨decode_iret_of_servicing_to_idle h, fun hs ht => ?_⟩⟩
  obtain ⟨i, hi, hentry⟩ := entry_of_idle_to_servicing h hs ht
  exact ⟨i, arbiter_some hi, hentry⟩

end Sys2Proof.Machine
end
